-- ==== Sys2Proof/Word.lean ====
section
/-! DEFINITION. The word types of the machine (00_scope.md R8, R12; 10_state.md R13, R16, R20, R21). -/

namespace Sys2Proof

/-- One byte of memory or of an instruction (20_memory.md R28). -/
abbrev Byte := BitVec 8

/-- One dword element: a single-precision value (00_scope.md R12). -/
abbrev Elem := BitVec 32

/-- An address, and the contents of a general register or of `rip` (10_state.md R20, R21). -/
abbrev Addr := BitVec 64

/-- The whole of a vector register: MAXVL = 512 bits (00_scope.md R7, D2). -/
abbrev ZmmVal := BitVec 512

/-- A vector register number, the 5-bit number of 30_encoding.md R48. -/
abbrev VReg := BitVec 5

/-- An opmask register number, the field `aaa` of 30_encoding.md R55. -/
abbrev KReg := BitVec 3

/-- A general register number 0..15 (30_encoding.md R49, R50). -/
abbrev GReg := BitVec 4

end Sys2Proof
end

