-- ==== Sys2Proof/Machine/Element.lean ====
section
/-! DEFINITION. The element function GETEXP (40_getexp_element.md), with the page's helper loop and arithmetic path as the spec reads
them, and the page's printed pseudocode for comparison. -/

namespace Sys2Proof.Machine

/-! ### Fields and classes (R68, R69) -/

/-- The biased exponent, bits 30..23. -/
def biasedExp (x : Elem) : BitVec 8 := x.extractLsb' 23 8

/-- The fraction, bits 22..0. -/
def fraction (x : Elem) : BitVec 23 := x.extractLsb' 0 23

/-- e = 0 and f = 0. -/
def isZero (x : Elem) : Bool := biasedExp x == 0 && fraction x == 0
/-- e = 0 and f != 0. -/
def isDenormal (x : Elem) : Bool := biasedExp x == 0 && fraction x != 0
/-- 1 <= e <= 254. -/
def isNormal (x : Elem) : Bool := biasedExp x != 0 && biasedExp x != 255
/-- e = 255 and f = 0. -/
def isInf (x : Elem) : Bool := biasedExp x == 255 && fraction x == 0
/-- e = 255, f != 0 and f[22] = 0. -/
def isSNaN (x : Elem) : Bool := biasedExp x == 255 && fraction x != 0 && !(fraction x).getLsbD 22
/-- e = 255 and f[22] = 1. -/
def isQNaN (x : Elem) : Bool := biasedExp x == 255 && (fraction x).getLsbD 22

/-! ### Constants and conversions -/

/-- +INF (00_scope.md R12). -/
def plusInf : Elem := 0x7F800000
/-- -INF (00_scope.md R12). -/
def minusInf : Elem := 0xFF800000

/-- `QNAN_FN`: set fraction bit 22, keep every other bit (R71, D22; notes/assumptions/16.md). -/
def qnanFn (x : Elem) : Elem := x ||| 0x00400000

/-- `CvtInt32ToSP(n)`, exact for |n| < 2^24 (R78). -/
def cvtInt32ToSP (n : Int) : Elem :=
  if n = 0 then 0
  else
    (if n < 0 then 0x80000000 else 0) |||
      (BitVec.ofNat 32 (n.natAbs.log2 + 127) <<< 23) |||
      (BitVec.ofNat 32 (n.natAbs - 2 ^ n.natAbs.log2) <<< (23 - n.natAbs.log2))

/-- The largest `i` below `n` with `f[i]` = 1, and 0 where there is none. -/
def topBit (f : BitVec 23) : Nat → Nat
  | 0 => 0
  | n + 1 => if f.getLsbD n then n else topBit f n

/-! ### The element function (R70) -/

/-- The result of an element and its two flag requests (R79). -/
structure ElemResult where
  res : Elem
  ie  : Bool
  de  : Bool
deriving DecidableEq, Repr

/-- `GetExpSP(x, daz)` (R70). -/
def getExpSP (x : Elem) (daz : Bool) : ElemResult :=
  if biasedExp x = 255 ∧ fraction x ≠ 0 then
    { res := qnanFn x, ie := !(fraction x).getLsbD 22, de := false }
  else if biasedExp x = 255 then
    { res := plusInf, ie := false, de := false }
  else if biasedExp x = 0 ∧ (fraction x = 0 ∨ daz = true) then
    { res := minusInf, ie := false, de := false }
  else if biasedExp x = 0 then
    { res := cvtInt32ToSP ((topBit (fraction x) 23 : Int) - 149), ie := false, de := true }
  else
    { res := cvtInt32ToSP (((biasedExp x).toNat : Int) - 127), ie := false, de := false }

/-! ### The page's integer steps, as the spec reads them -/

/-- `SAR(v, n)` on 32 bits (00_scope.md R9). -/
def sar32 (v : Elem) (n : Nat) : Elem := v.sshiftRight n

/-- The arithmetic path of a normal source: sign cleared, SAR by 23, minus 127, converted (R75, R77). -/
def normalPath (x : Elem) : Elem := cvtInt32ToSP (sar32 (x &&& 0x7FFFFFFF) 23 - 127).toInt

/-- The loop of `NormalizeExpTinySPFP` as the spec reads it, with `Dst.exp` a signed integer and at most `fuel` turns (R76). -/
def normalizeLoop : Nat → BitVec 23 → Int → Int
  | 0, _, e => e
  | fuel + 1, f, e => if f.getLsbD 22 then e - 1 else normalizeLoop fuel (f <<< 1) (e - 1)

/-- `Dst.exp` that the loop leaves for a fraction other than 0: it starts at 1 and turns at most 23 times (R76). -/
def normalizeExpTiny (f : BitVec 23) : Int := normalizeLoop 23 f 1

/-! ### The printed pseudocode (R82): not normative, kept for the comparison that 90_conflicts.md C2, C3 and C6 make -/

/-- `NormalizeExpTinySPFP` to the letter: `Dst.exp` packed into bits 30..23 under a sign bit of 1. -/
def printedNormalize (f : BitVec 23) : Elem :=
  0x80000000 ||| (BitVec.ofInt 32 (normalizeExpTiny f) <<< 23)

/-- `ConvertExpSPFP` to the letter, its tests read as the chain of C4. -/
def printedConvertExp (x : Elem) (daz : Bool) : ElemResult :=
  if biasedExp x = 255 ∧ fraction x ≠ 0 then
    { res := qnanFn x, ie := !(fraction x).getLsbD 22, de := false }
  else if x = plusInf then
    { res := x, ie := false, de := false }
  else if biasedExp x = 0 ∧ (fraction x = 0 ∨ daz = true) then
    { res := minusInf, ie := false, de := false }
  else if biasedExp x = 0 then
    { res := cvtInt32ToSP (sar32 (printedNormalize (fraction x)) 23 - 127).toInt, ie := false, de := true }
  else
    { res := normalPath x, ie := false, de := false }

end Sys2Proof.Machine
end

