-- ==== Sys2Proof/Syntax.lean ====
section
/-! DEFINITION. The abstract syntax: one constructor of Instr per row of opcode_table.json (30_encoding.md R63), with the memory
operand shapes of 30_encoding.md R49 to R53. -/

namespace Sys2Proof

/-- The three vector lengths (30_encoding.md R47). -/
inductive VecLen where
  | v128
  | v256
  | v512
deriving DecidableEq, Repr

/-- A displacement as encoded: absent, one byte (scaled by N when used, 30_encoding.md R53) or four bytes (R52). -/
inductive Disp where
  | none
  | disp8  (d : BitVec 8)
  | disp32 (d : BitVec 32)
deriving DecidableEq, Repr

/-- The index term of a SIB byte: none, or a general register times 2^scale (30_encoding.md R50). -/
inductive Index where
  | none
  | scaled (r : GReg) (scale : BitVec 2)
deriving DecidableEq, Repr

/-- The memory operand shapes (30_encoding.md R49, R50, R51). -/
inductive MemOp where
  /-- no SIB byte, a base register and a displacement (R49) -/
  | base      (r : GReg) (disp : Disp)
  /-- mod = 00, r/m = 101 (R51) -/
  | ripRel    (disp : BitVec 32)
  /-- SIB byte with a base register (R50) -/
  | sib       (r : GReg) (index : Index) (disp : Disp)
  /-- SIB byte with mod = 00 and base field 101: no base (R50) -/
  | sibNoBase (index : Index) (disp : BitVec 32)
deriving DecidableEq, Repr

/-- The instructions: the ten forms of VGETEXPPS, with destination `d`, source register `s` or memory operand `m`, writemask number
`aaa` (000: no writemask, 30_encoding.md R55) and zeroing bit `z` (R56). -/
inductive Instr where
  /-- `VGETEXPPS xmm1 {k1}{z}, xmm2` (41_vgetexpps.md R90) -/
  | vgetexpps128Reg    (d s : VReg) (aaa : KReg) (z : Bool)
  /-- `VGETEXPPS xmm1 {k1}{z}, m128` (R91) -/
  | vgetexpps128Mem    (d : VReg) (m : MemOp) (aaa : KReg) (z : Bool)
  /-- `VGETEXPPS xmm1 {k1}{z}, m32bcst` (R92) -/
  | vgetexpps128Bcst   (d : VReg) (m : MemOp) (aaa : KReg) (z : Bool)
  /-- `VGETEXPPS ymm1 {k1}{z}, ymm2` (R93) -/
  | vgetexpps256Reg    (d s : VReg) (aaa : KReg) (z : Bool)
  /-- `VGETEXPPS ymm1 {k1}{z}, m256` (R94) -/
  | vgetexpps256Mem    (d : VReg) (m : MemOp) (aaa : KReg) (z : Bool)
  /-- `VGETEXPPS ymm1 {k1}{z}, m32bcst` (R95) -/
  | vgetexpps256Bcst   (d : VReg) (m : MemOp) (aaa : KReg) (z : Bool)
  /-- `VGETEXPPS zmm1 {k1}{z}, zmm2` (R96) -/
  | vgetexpps512Reg    (d s : VReg) (aaa : KReg) (z : Bool)
  /-- `VGETEXPPS zmm1 {k1}{z}, m512` (R97) -/
  | vgetexpps512Mem    (d : VReg) (m : MemOp) (aaa : KReg) (z : Bool)
  /-- `VGETEXPPS zmm1 {k1}{z}, m32bcst` (R98) -/
  | vgetexpps512Bcst   (d : VReg) (m : MemOp) (aaa : KReg) (z : Bool)
  /-- `VGETEXPPS zmm1 {k1}{z}, zmm2{sae}` (R99) -/
  | vgetexpps512RegSae (d s : VReg) (aaa : KReg) (z : Bool)
deriving DecidableEq, Repr

end Sys2Proof
end

