-- ==== Sys2Proof/Decode.lean ====
section
/-! DEFINITION. The decoder, total on every list of bytes, rejecting by name (30_encoding.md R62), the encoder (R44 to R56), the
instruction length (R60), and the reading of a word numbered as opcode_table.json numbers it. The bit layout is the spec's general
knowledge G1 to G4 (notes/assumptions/13.md). -/

namespace Sys2Proof

/-- What the decoder makes of the bytes at `rip` (30_encoding.md R62). -/
inductive Decoded where
  /-- an instruction of the ten forms (R63) -/
  | ok (i : Instr)
  /-- `raise #UD`: a reserved field value (R57, R58) -/
  | ud
  /-- `refuse(NotVGETEXPPS)` (R58, R59) -/
  | notVgetexpps
  /-- `refuse(SaeWithOtherLL)` (R54) -/
  | saeWithOtherLL
  /-- the bytes given end before the instruction does: `need` bytes are wanted (notes/assumptions/6.md) -/
  | truncated (need : Nat)
deriving DecidableEq, Repr

/-- The operand of ModRM:r/m (30_encoding.md R48). -/
inductive RM where
  | reg (s : VReg)
  | mem (m : MemOp)
deriving DecidableEq, Repr

/-- The free fields of an encoding (30_encoding.md R46), operands assembled. -/
structure Fields where
  ll  : BitVec 2
  b   : Bool
  z   : Bool
  aaa : KReg
  d   : VReg
  rm  : RM
deriving DecidableEq, Repr

/-! ### Bit fields of the prefix and of ModRM (30_encoding.md R45, R48, R50) -/

/-- `ModRM.mod` and `SIB.scale`: bits 7..6. -/
def bits76 (m : Byte) : BitVec 2 := m.extractLsb' 6 2
/-- `ModRM.reg` and `SIB.index`: bits 5..3. -/
def bits53 (m : Byte) : BitVec 3 := m.extractLsb' 3 3
/-- `ModRM.r/m`, `SIB.base` and `aaa` of P2: bits 2..0. -/
def bits20 (m : Byte) : BitVec 3 := m.extractLsb' 0 3

/-- A 5-bit vector register number from two bits stored inverted and three stored plain (30_encoding.md R48). -/
def vregNum (bar4 bar3 : Bool) (low : BitVec 3) : VReg :=
  BitVec.ofBool (!bar4) ++ BitVec.ofBool (!bar3) ++ low

/-- A 4-bit general register number from one bit stored inverted and three stored plain (30_encoding.md R49, R50). -/
def gregNum (bar3 : Bool) (low : BitVec 3) : GReg :=
  BitVec.ofBool (!bar3) ++ low

/-- Four displacement bytes, least significant first (30_encoding.md R52). -/
def disp32Of (b0 b1 b2 b3 : Byte) : BitVec 32 := b3 ++ b2 ++ b1 ++ b0

/-! ### The decoder -/

/-- The index term named by a SIB byte: `ix` = 4 is "no index" (30_encoding.md R50). -/
def decodeIndex (xbar : Bool) (sib : Byte) : Index :=
  if gregNum xbar (bits53 sib) = 4 then .none else .scaled (gregNum xbar (bits53 sib)) (bits76 sib)

/-- A one-byte displacement; `need` is the instruction's length. -/
def takeDisp8 (need : Nat) : List Byte → Except Nat (BitVec 8)
  | d :: _ => .ok d
  | [] => .error need

/-- A four-byte displacement; `need` is the instruction's length. -/
def takeDisp32 (need : Nat) : List Byte → Except Nat (BitVec 32)
  | b0 :: b1 :: b2 :: b3 :: _ => .ok (disp32Of b0 b1 b2 b3)
  | _ => .error need

/-- The bytes wanted where the SIB byte is missing (30_encoding.md R60): mod = 01 and 10 fix the length, 8 and 11, without it; with
mod = 00 the length depends on it, and the bytes up to it are wanted (notes/assumptions/6.md). -/
def needWithoutSib (mod : BitVec 2) : Nat := if mod = 0 then 7 else if mod = 1 then 8 else 11

/-- The memory operand of a ModRM byte with r/m = 100 and mod other than 11 (30_encoding.md R50). -/
def decodeSib (xbar bbar : Bool) (mod : BitVec 2) : List Byte → Except Nat MemOp
  | [] => .error (needWithoutSib mod)
  | sib :: rest =>
    if mod = 0 then
      if bits20 sib = 5 then (takeDisp32 11 rest).map (.sibNoBase (decodeIndex xbar sib))
      else .ok (.sib (gregNum bbar (bits20 sib)) (decodeIndex xbar sib) .none)
    else if mod = 1 then
      (takeDisp8 8 rest).map fun d => .sib (gregNum bbar (bits20 sib)) (decodeIndex xbar sib) (.disp8 d)
    else
      (takeDisp32 11 rest).map fun d => .sib (gregNum bbar (bits20 sib)) (decodeIndex xbar sib) (.disp32 d)

/-- The memory operand of a ModRM byte with r/m other than 100 and mod other than 11 (30_encoding.md R49). -/
def decodeNoSib (bbar : Bool) (mod : BitVec 2) (rm : BitVec 3) (rest : List Byte) : Except Nat MemOp :=
  if mod = 0 then
    if rm = 5 then (takeDisp32 10 rest).map .ripRel
    else .ok (.base (gregNum bbar rm) .none)
  else if mod = 1 then (takeDisp8 7 rest).map fun d => .base (gregNum bbar rm) (.disp8 d)
  else (takeDisp32 10 rest).map fun d => .base (gregNum bbar rm) (.disp32 d)

/-- The operand of ModRM:r/m, from P0, ModRM and the bytes after it; an error is the number of bytes the instruction wants
(30_encoding.md R48 to R52, R60). -/
def decodeRM (p0 m : Byte) (rest : List Byte) : Except Nat RM :=
  if bits76 m = 3 then .ok (.reg (vregNum (p0.getLsbD 6) (p0.getLsbD 5) (bits20 m)))
  else if bits20 m = 4 then (decodeSib (p0.getLsbD 6) (p0.getLsbD 5) (bits76 m) rest).map .mem
  else (decodeNoSib (p0.getLsbD 5) (bits76 m) (bits20 m) rest).map .mem

/-- A register source: plain, or with b = 1 the `{sae}` form (30_encoding.md R47, R54, R63). -/
def selectReg (saeIgnoresLL : Bool) (f : Fields) (s : VReg) : Decoded :=
  if f.b then
    if f.ll != 2 && !saeIgnoresLL then .saeWithOtherLL
    else .ok (.vgetexpps512RegSae f.d s f.aaa f.z)
  else if f.ll = 0 then .ok (.vgetexpps128Reg f.d s f.aaa f.z)
  else if f.ll = 1 then .ok (.vgetexpps256Reg f.d s f.aaa f.z)
  else if f.ll = 2 then .ok (.vgetexpps512Reg f.d s f.aaa f.z)
  else .ud

/-- A memory source: the full vector, or with b = 1 a broadcast (30_encoding.md R47, R54, R63). -/
def selectMem (f : Fields) (m : MemOp) : Decoded :=
  if f.ll = 0 then .ok (if f.b then .vgetexpps128Bcst f.d m f.aaa f.z else .vgetexpps128Mem f.d m f.aaa f.z)
  else if f.ll = 1 then .ok (if f.b then .vgetexpps256Bcst f.d m f.aaa f.z else .vgetexpps256Mem f.d m f.aaa f.z)
  else if f.ll = 2 then .ok (if f.b then .vgetexpps512Bcst f.d m f.aaa f.z else .vgetexpps512Mem f.d m f.aaa f.z)
  else .ud

/-- The form that the fields select (30_encoding.md R63). -/
def selectForm (saeIgnoresLL : Bool) (f : Fields) : Decoded :=
  match f.rm with
  | .reg s => selectReg saeIgnoresLL f s
  | .mem m => selectMem f m

/-- The fixed fields of bytes 1, 2 and 4 (30_encoding.md R46, and the refusals of R62). -/
def fixedFieldsMatch (p0 p1 op : Byte) : Bool :=
  p0.extractLsb' 0 4 == 0b0010#4 && !p1.getLsbD 7 && p1.getLsbD 2 && p1.extractLsb' 0 2 == 0b01#2 && op == 0x42

/-- The destination number of P0 and ModRM (30_encoding.md R48). -/
def destOf (p0 m : Byte) : VReg := vregNum (p0.getLsbD 4) (p0.getLsbD 7) (bits53 m)

/-- The tests on reserved fields, once the whole instruction is fetched (30_encoding.md R62; 90_conflicts.md C14). -/
def decodeReserved (saeIgnoresLL : Bool) (p0 p1 p2 m : Byte) (rm : RM) : Decoded :=
  if p1.extractLsb' 3 4 != 0b1111#4 then .ud
  else if !p2.getLsbD 3 then .ud
  else if p2.getLsbD 7 && bits20 p2 == 0 then .ud
  else selectForm saeIgnoresLL
    { ll := p2.extractLsb' 5 2, b := p2.getLsbD 4, z := p2.getLsbD 7, aaa := bits20 p2, d := destOf p0 m, rm := rm }

/-- `Decode` of 30_encoding.md R62, given the bytes from `rip` on that memory admits. The tests of the CPUID feature flags, last in
R62, are made by the meanings (notes/assumptions/10.md). -/
def decode (saeIgnoresLL : Bool) : List Byte → Decoded
  | [] => .truncated 1
  | b0 :: after =>
    if b0 != 0x62 then .notVgetexpps
    else match after with
      | p0 :: p1 :: p2 :: op :: m :: rest =>
        if !fixedFieldsMatch p0 p1 op then .notVgetexpps
        else match decodeRM p0 m rest with
          | .error need => .truncated need
          | .ok rm => decodeReserved saeIgnoresLL p0 p1 p2 m rm
      | _ => .truncated 6

/-! ### Lengths (30_encoding.md R60) -/

/-- Bytes of a displacement. -/
def Disp.length : Disp → Nat
  | .none => 0
  | .disp8 _ => 1
  | .disp32 _ => 4

/-- Bytes after ModRM: SIB and displacement. -/
def MemOp.length : MemOp → Nat
  | .base _ disp => disp.length
  | .ripRel _ => 4
  | .sib _ _ disp => 1 + disp.length
  | .sibNoBase _ _ => 5

/-- `len` of 30_encoding.md R60: 6 for the register forms, 6 to 11 for the memory forms. -/
def Instr.length : Instr → Nat
  | .vgetexpps128Reg _ _ _ _    => 6
  | .vgetexpps128Mem _ m _ _    => 6 + m.length
  | .vgetexpps128Bcst _ m _ _   => 6 + m.length
  | .vgetexpps256Reg _ _ _ _    => 6
  | .vgetexpps256Mem _ m _ _    => 6 + m.length
  | .vgetexpps256Bcst _ m _ _   => 6 + m.length
  | .vgetexpps512Reg _ _ _ _    => 6
  | .vgetexpps512Mem _ m _ _    => 6 + m.length
  | .vgetexpps512Bcst _ m _ _   => 6 + m.length
  | .vgetexpps512RegSae _ _ _ _ => 6

/-- The longest instruction (30_encoding.md R60). -/
def maxLength : Nat := 11

/-! ### The encoder -/

/-- The four bytes of a displacement, least significant first (30_encoding.md R52). -/
def disp32Bytes (d : BitVec 32) : List Byte :=
  [d.extractLsb' 0 8, d.extractLsb' 8 8, d.extractLsb' 16 8, d.extractLsb' 24 8]

/-- The displacement's bytes. -/
def Disp.bytes : Disp → List Byte
  | .none => []
  | .disp8 d => [d]
  | .disp32 d => disp32Bytes d

/-- `ModRM.mod` for a displacement (30_encoding.md R49, R50). -/
def Disp.mod : Disp → BitVec 2
  | .none => 0
  | .disp8 _ => 1
  | .disp32 _ => 2

/-- The index register number an index is encoded by: 4 for none (30_encoding.md R50). -/
def Index.reg : Index → GReg
  | .none => 4
  | .scaled r _ => r

/-- The scale an index is encoded by; 00 where there is none and the bits are ignored (notes/assumptions/23.md). -/
def Index.scale : Index → BitVec 2
  | .none => 0
  | .scaled _ sc => sc

/-- Two bits, then two fields of three bits: the shape of ModRM and of SIB. -/
def packByte (hi : BitVec 2) (mid low : BitVec 3) : Byte := hi ++ mid ++ low

/-- The r/m operand as encoded: `X̄`, `B̄`, mod, r/m, and the bytes after ModRM. Bits the decoder ignores are 1
(notes/assumptions/23.md). -/
structure RMCode where
  xbar : Bool
  bbar : Bool
  mod  : BitVec 2
  rm   : BitVec 3
  tail : List Byte
deriving DecidableEq, Repr

/-- The encoding of the r/m operand (30_encoding.md R48 to R52). -/
def encodeRM : RM → RMCode
  | .reg s =>
    { xbar := !s.getLsbD 4, bbar := !s.getLsbD 3, mod := 3, rm := s.extractLsb' 0 3, tail := [] }
  | .mem (.base r disp) =>
    { xbar := true, bbar := !r.getLsbD 3, mod := disp.mod, rm := r.extractLsb' 0 3, tail := disp.bytes }
  | .mem (.ripRel d) =>
    { xbar := true, bbar := true, mod := 0, rm := 5, tail := disp32Bytes d }
  | .mem (.sib r ix disp) =>
    { xbar := !ix.reg.getLsbD 3, bbar := !r.getLsbD 3, mod := disp.mod, rm := 4,
      tail := packByte ix.scale (ix.reg.extractLsb' 0 3) (r.extractLsb' 0 3) :: disp.bytes }
  | .mem (.sibNoBase ix d) =>
    { xbar := !ix.reg.getLsbD 3, bbar := true, mod := 0, rm := 4,
      tail := packByte ix.scale (ix.reg.extractLsb' 0 3) 5 :: disp32Bytes d }

/-- P0: R̄ X̄ B̄ R̄' 0 0 1 0 (30_encoding.md R45, R46). -/
def p0Byte (d : VReg) (xbar bbar : Bool) : Byte :=
  BitVec.ofBool (!d.getLsbD 3) ++ BitVec.ofBool xbar ++ BitVec.ofBool bbar ++ BitVec.ofBool (!d.getLsbD 4) ++ 0b0010#4

/-- P2: z L'L b 1 aaa (30_encoding.md R45, R46). -/
def p2Byte (z : Bool) (ll : BitVec 2) (b : Bool) (aaa : KReg) : Byte :=
  BitVec.ofBool z ++ ll ++ BitVec.ofBool b ++ 1#1 ++ aaa

/-- The bytes of the fields, in increasing address order (30_encoding.md R44, R46). -/
def encodeFields (f : Fields) : List Byte :=
  0x62 :: p0Byte f.d (encodeRM f.rm).xbar (encodeRM f.rm).bbar :: 0x7D :: p2Byte f.z f.ll f.b f.aaa :: 0x42 ::
    packByte (encodeRM f.rm).mod (f.d.extractLsb' 0 3) (encodeRM f.rm).rm :: (encodeRM f.rm).tail

/-- The fields of each form (30_encoding.md R63). -/
def Instr.fields : Instr → Fields
  | .vgetexpps128Reg d s aaa z    => { ll := 0, b := false, z := z, aaa := aaa, d := d, rm := .reg s }
  | .vgetexpps128Mem d m aaa z    => { ll := 0, b := false, z := z, aaa := aaa, d := d, rm := .mem m }
  | .vgetexpps128Bcst d m aaa z   => { ll := 0, b := true,  z := z, aaa := aaa, d := d, rm := .mem m }
  | .vgetexpps256Reg d s aaa z    => { ll := 1, b := false, z := z, aaa := aaa, d := d, rm := .reg s }
  | .vgetexpps256Mem d m aaa z    => { ll := 1, b := false, z := z, aaa := aaa, d := d, rm := .mem m }
  | .vgetexpps256Bcst d m aaa z   => { ll := 1, b := true,  z := z, aaa := aaa, d := d, rm := .mem m }
  | .vgetexpps512Reg d s aaa z    => { ll := 2, b := false, z := z, aaa := aaa, d := d, rm := .reg s }
  | .vgetexpps512Mem d m aaa z    => { ll := 2, b := false, z := z, aaa := aaa, d := d, rm := .mem m }
  | .vgetexpps512Bcst d m aaa z   => { ll := 2, b := true,  z := z, aaa := aaa, d := d, rm := .mem m }
  | .vgetexpps512RegSae d s aaa z => { ll := 2, b := true,  z := z, aaa := aaa, d := d, rm := .reg s }

/-- The words of an instruction. -/
def encode (i : Instr) : List Byte := encodeFields i.fields

/-! ### The rows of opcode_table.json -/

/-- A row of opcode_table.json: `match` and `mask` over bytes 0 to 5, byte 0 in the top byte, and whether its constraint is
"MM != 11 (ModRM.mod selects memory)". -/
structure FormRow where
  pat    : BitVec 48
  mask   : BitVec 48
  memory : Bool
deriving DecidableEq, Repr

/-- The row of each form (30_encoding.md R63; opcode_table.json, columns `match` and `mask`). -/
def Instr.row : Instr → FormRow
  | .vgetexpps128Reg _ _ _ _    => { pat := 0x6202050042C0, mask := 0xFF0F8770FFC0, memory := false }
  | .vgetexpps128Mem _ _ _ _    => { pat := 0x620205004200, mask := 0xFF0F8770FF00, memory := true }
  | .vgetexpps128Bcst _ _ _ _   => { pat := 0x620205104200, mask := 0xFF0F8770FF00, memory := true }
  | .vgetexpps256Reg _ _ _ _    => { pat := 0x6202052042C0, mask := 0xFF0F8770FFC0, memory := false }
  | .vgetexpps256Mem _ _ _ _    => { pat := 0x620205204200, mask := 0xFF0F8770FF00, memory := true }
  | .vgetexpps256Bcst _ _ _ _   => { pat := 0x620205304200, mask := 0xFF0F8770FF00, memory := true }
  | .vgetexpps512Reg _ _ _ _    => { pat := 0x6202054042C0, mask := 0xFF0F8770FFC0, memory := false }
  | .vgetexpps512Mem _ _ _ _    => { pat := 0x620205404200, mask := 0xFF0F8770FF00, memory := true }
  | .vgetexpps512Bcst _ _ _ _   => { pat := 0x620205504200, mask := 0xFF0F8770FF00, memory := true }
  | .vgetexpps512RegSae _ _ _ _ => { pat := 0x6202055042C0, mask := 0xFF0F8770FFC0, memory := false }

/-- Six bytes as the table writes them: byte 0 in the top byte. -/
def tableWord (b0 b1 b2 b3 b4 b5 : Byte) : BitVec 48 := b0 ++ b1 ++ b2 ++ b3 ++ b4 ++ b5

/-- A word is of a row: its masked bits are the row's, and ModRM.mod is other than 11 where the row says so. -/
def FormRow.holds (r : FormRow) (w : BitVec 48) : Bool :=
  w &&& r.mask == r.pat && !(r.memory && w.extractLsb' 6 2 == 3#2)

/-! ### Words as opcode_table.json numbers them (notes/assumptions/21.md) -/

/-- `n` bytes of a number, the first byte in bits 7..0. -/
def lowFirst : Nat → Nat → List Byte
  | 0, _ => []
  | n + 1, w => BitVec.ofNat 8 w :: lowFirst n (w / 256)

/-- The instruction's bytes in address order, for a word of `nbits` bits, and zeros up to the longest instruction. The first byte
lies in bits 7..0; a word whose bits 7..0 are not 0x62 and whose most significant byte is, is in the order of the table's `match`
column ("byte 0 (0x62) first"), and is turned round. -/
def tableWordBytes (nbits w : Nat) : List Byte :=
  let bytes := lowFirst ((nbits + 7) / 8) w
  let bytes := if bytes.head? != some 0x62 && bytes.getLast? == some 0x62 then bytes.reverse else bytes
  bytes ++ List.replicate (maxLength - bytes.length) 0

/-- The instruction the decoder reads from a word of the opcode table, under the default parameter SAE_IGNORES_LL. -/
def decodeTableWord (nbits w : Nat) : Option Instr :=
  match decode false (tableWordBytes nbits w) with
  | .ok i => some i
  | .ud => none
  | .notVgetexpps => none
  | .saeWithOtherLL => none
  | .truncated _ => none

end Sys2Proof
end

