-- ==== Sys2Proof/Config.lean ====
section
/-! DEFINITION. What an implementation or a launch fixes: the parameters of 00_scope.md R7 that the spec leaves OPEN. They are
plain data (State carries one Config, no step writes it), so a statement about every state holds for every value of them. -/

namespace Sys2Proof

/-- `K_WIDTH`, the width of an opmask register: 16 or 64 (00_scope.md R7; 92_eei_decisions.md D5). -/
inductive KWidth where
  | w16
  | w64
deriving DecidableEq, Repr

/-- The processor mode (00_scope.md R3: 64-bit mode, and the compatibility and legacy protected modes it refuses, D33). -/
inductive Mode where
  | bits64
  | compatibility
  | legacyProtected
deriving DecidableEq, Repr

/-- The implementation's parameters. `hasAVX512F`, `hasAVX512VL`: the CPUID feature flags (10_state.md R22).
`saeIgnoresLL`: whether a register form with b = 1 and L'L other than 10 is the `{sae}` form (30_encoding.md R54, D19). -/
structure Config where
  hasAVX512F   : Bool
  hasAVX512VL  : Bool
  saeIgnoresLL : Bool
  kWidth       : KWidth
deriving DecidableEq, Repr

/-- The values State.reset takes. DESIGN CHOICE (notes/assumptions/1.md): the flags are OPEN in the spec and true here, as in
95_test_vectors.md's default start; `saeIgnoresLL` is the spec's default, false; `K_WIDTH` is OPEN and 64 here. -/
def Config.default : Config :=
  { hasAVX512F := true, hasAVX512VL := true, saeIgnoresLL := false, kWidth := .w64 }

end Sys2Proof
end

