-- ==== Sys2Proof/Machine/State.lean ====
section
/-! DEFINITION. The state of the machine as plain data (10_state.md R13 to R27), the fault and refusal reasons, and the state right
after reset. -/

namespace Sys2Proof.Machine

/-- Memory: the admitted bytes and their values (20_memory.md R28, R37), addresses strictly rising. An address that is not listed
has no value: `Admit` is false of it (notes/assumptions/4.md). -/
abbrev Memory := List Host.Cell

/-- Every address is below `lo`'s successors in rising order and inside the 64-bit address space. -/
def Memory.wfFrom : Nat → Memory → Bool
  | _, [] => true
  | lo, (a, _) :: rest => decide (lo ≤ a) && decide (a < 2 ^ 64) && Memory.wfFrom (a + 1) rest

/-- The canonical form: addresses strictly rising, all of them 64-bit addresses. -/
def Memory.wf (m : Memory) : Bool := Memory.wfFrom 0 m

/-- The state of one logical processor and its memory. `cfg` is fixed for a run: no step writes it. -/
structure State where
  /-- zmm0..zmm31; xmm and ymm are their low bits (10_state.md R13, R14) -/
  zmm       : Vector ZmmVal 32
  /-- k0..k7, stored in 64 bits and read through K_WIDTH (R16) -/
  k         : Vector (BitVec 64) 8
  /-- the whole of MXCSR (R17, R18) -/
  mxcsr     : BitVec 32
  /-- the general registers (R20) -/
  gpr       : Vector (BitVec 64) 16
  /-- address of the first byte of the instruction (R21) -/
  rip       : Addr
  /-- data and program text (R24; 20_memory.md R28) -/
  mem       : Memory
  /-- the processor mode (00_scope.md R3) -/
  mode      : Mode
  /-- `OS_ENABLED` (R27; 70_reset_and_hazards.md R122) -/
  osEnabled : Bool
  /-- the implementation's parameters (R22; 00_scope.md R7) -/
  cfg       : Config
deriving DecidableEq, Repr

/-- The faults of 60_exceptions.md R110: `Fault(kind, rip)`, the kinds `UD`, `XM` and `MemFault(addr, n)`. A fault changes nothing and
ends the run; no handler is entered (notes/assumptions/11.md). -/
inductive Fault where
  /-- `#UD`: raised by decoding on a reserved field value (R101, R102) and by every form whose CPUID feature is absent (R103). Safe: the
  machine stops where the chip enters a handler. -/
  | ud (rip : Addr)
  /-- `#XM`: raised by every form without `{sae}` on an unmasked IE or DE request (R107). Safe, as `ud`. -/
  | xm (rip : Addr)
  /-- `MemFault(addr, n)`: raised by fetch and by the memory forms when memory does not admit the bytes (20_memory.md R37). Safe: the
  machine stops where the chip may go on. -/
  | memFault (rip addr : Addr) (n : Nat)
deriving DecidableEq, Repr

/-- The refusals: the machine has no meaning for what stands at `rip` (60_exceptions.md R111). All are safe: the machine stops. -/
inductive Refusal where
  /-- an instruction of the table whose meaning is not written yet; no arm answers it any more -/
  | notModelled (mnemonic : String)
  /-- `refuse(NotVGETEXPPS)`, by decoding (30_encoding.md R58, R59, R62) -/
  | notVgetexpps
  /-- `refuse(SaeWithOtherLL)`, by decoding under `saeIgnoresLL` = false (R54) -/
  | saeWithOtherLL
  /-- a mode other than 64-bit mode, by the step (00_scope.md R3, D33) -/
  | otherMode
  /-- a launch that breaks the premise OS_ENABLED, by every form: the spec models no step there (60_exceptions.md R103, D25) -/
  | osNotEnabled
deriving DecidableEq, Repr

/-- The outcome of a step of this machine. -/
abbrev Outcome := Host.Outcome State Fault Refusal

/-- The machine right after reset. The spec gives no reset value for anything (10_state.md R26, 70_reset_and_hazards.md R119):
registers are 0 (DESIGN CHOICE, notes/assumptions/2.md), MXCSR is 0x1F80 (PRESUMED, 3.md), memory admits nothing (4.md), the mode is
64-bit and OS_ENABLED holds (R26, R27; 8.md, 9.md), the parameters are Config.default (1.md). -/
def State.reset : State :=
  { zmm := Vector.replicate 32 0
    k := Vector.replicate 8 0
    mxcsr := 0x1F80
    gpr := Vector.replicate 16 0
    rip := 0
    mem := []
    mode := .bits64
    osEnabled := true
    cfg := Config.default }

end Sys2Proof.Machine
end

