-- ==== Sys2Proof/Machine/Ops.lean ====
section
/-! DEFINITION. The named operations over memory and registers, raising an exception, and moving past an instruction. -/

namespace Sys2Proof.Machine

/-! ### Memory (20_memory.md) -/

/-- The byte at an address; none where memory does not admit it (R28, R37). -/
def Memory.read : Memory → Nat → Option Byte
  | [], _ => none
  | (k, b) :: rest, a => if k = a then some b else Memory.read rest a

/-- Place a byte, keeping the addresses rising. No instruction uses it (R35): it is how a launch is written down. -/
def Memory.write : Memory → Nat → Byte → Memory
  | [], a, v => [(a, v)]
  | (k, b) :: rest, a, v =>
    if a < k then (a, v) :: (k, b) :: rest
    else if a = k then (a, v) :: rest
    else (k, b) :: Memory.write rest a v

/-- Place bytes at consecutive addresses, those inside the address space. -/
def Memory.load : Memory → Nat → List Byte → Memory
  | m, _, [] => m
  | m, a, b :: bs => if a < 2 ^ 64 then Memory.load (m.write a b) (a + 1) bs else m

/-- `n` bytes from an address on, in address order; none unless all of them are admitted. -/
def Memory.readBytes (m : Memory) : Nat → Nat → Option (List Byte)
  | _, 0 => some []
  | a, n + 1 =>
    match m.read a, Memory.readBytes m (a + 1) n with
    | some b, some bs => some (b :: bs)
    | _, _ => none

/-- `MemRead(addr, n)` as bytes, none where `Admit(addr, n)` is false: a byte has no value, or the range wraps (R37). -/
def Memory.readRange (m : Memory) (a : Addr) (n : Nat) : Option (List Byte) :=
  if a.toNat + n ≤ 2 ^ 64 then m.readBytes a.toNat n else none

/-- `Admit(addr, n)` (R37). -/
def Memory.admits (m : Memory) (a : Addr) (n : Nat) : Bool := (m.readRange a n).isSome

/-- The longest run of admitted bytes from an address on, at most `n` of them, not past the top of the address space (R37). -/
def Memory.admittedFrom (m : Memory) : Nat → Nat → List Byte
  | _, 0 => []
  | a, n + 1 =>
    if a < 2 ^ 64 then
      match m.read a with
      | some b => b :: Memory.admittedFrom m (a + 1) n
      | none => []
    else []

/-- The value of bytes in address order, the first in bits 7..0: little-endian (R30). -/
def packBytes : List Byte → ZmmVal
  | [] => 0
  | b :: bs => b.setWidth 512 ||| (packBytes bs <<< 8)

/-! ### Registers (10_state.md) -/

/-- `zmm[i]` (R13). -/
def State.readZmm (s : State) (i : VReg) : ZmmVal := s.zmm[i.toNat]'i.isLt

/-- `xmm[i]`, bits 127..0 of `zmm[i]` (R14). -/
def State.readXmm (s : State) (i : VReg) : BitVec 128 := (s.readZmm i).setWidth 128

/-- `ymm[i]`, bits 255..0 of `zmm[i]` (R14). -/
def State.readYmm (s : State) (i : VReg) : BitVec 256 := (s.readZmm i).setWidth 256

/-- `zmm[i] <- v`, all 512 bits (R15). -/
def State.writeZmm (s : State) (i : VReg) (v : ZmmVal) : State := { s with zmm := s.zmm.set i.toNat v i.isLt }

/-- The bits an opmask register has (R16, D5). -/
def opmaskBits : KWidth → BitVec 64
  | .w16 => 0xFFFF
  | .w64 => 0xFFFFFFFFFFFFFFFF

/-- `k[a]`, of K_WIDTH bits (R16). -/
def State.readK (s : State) (a : KReg) : BitVec 64 := s.k[a.toNat]'a.isLt &&& opmaskBits s.cfg.kWidth

/-- `gpr[i]` (R20). -/
def State.readGpr (s : State) (i : GReg) : Addr := s.gpr[i.toNat]'i.isLt

/-- The address of the byte after the instruction, modulo 2^64 (R21). -/
def State.nextRip (s : State) (len : Nat) : Addr := s.rip + BitVec.ofNat 64 len

/-- `rip <- rip + len` (R21, 41_vgetexpps.md R89). -/
def State.advance (s : State) (len : Nat) : State := { s with rip := s.nextRip len }

/-! ### Exceptions -/

/-- `raise`: the instruction ends in `Fault(kind, rip)` with the state as it was (60_exceptions.md R110). The spec describes no entry to
a handler and no return, so there is neither here. -/
def raise (kind : Addr → Fault) (s : State) : Outcome := .fault (kind s.rip)

/-! ### Fetch -/

/-- The bytes from `rip` on that memory admits, as many as the longest instruction has (20_memory.md R29, R37). -/
def State.codeBytes (s : State) : List Byte := s.mem.admittedFrom s.rip.toNat maxLength

/-- Fetch and decode the instruction at `rip` (30_encoding.md R62). -/
def State.fetchDecode (s : State) : Decoded := decode s.cfg.saeIgnoresLL s.codeBytes

/-- 64-bit mode only (00_scope.md R3, D33). -/
def State.modeAdmitted (s : State) : Bool := s.mode == .bits64

/-- The state with bytes placed in memory from an address on. -/
def State.loadBytes (s : State) (a : Nat) (bs : List Byte) : State := { s with mem := s.mem.load a bs }

end Sys2Proof.Machine
end

