-- ==== Sys2Proof/Machine/Flags.lean ====
section
/-! DEFINITION. MXCSR: its fields (10_state.md R18), the flags an instruction sets (R19, 41_vgetexpps.md R88), and the test for an unmasked
exception (60_exceptions.md R107). -/

namespace Sys2Proof.Machine

/-- Invalid-operation flag. -/
def mxIE (m : BitVec 32) : Bool := m.getLsbD 0
/-- Denormal-operand flag. -/
def mxDE (m : BitVec 32) : Bool := m.getLsbD 1
/-- Divide-by-zero flag, never touched (40_getexp_element.md R80). -/
def mxZE (m : BitVec 32) : Bool := m.getLsbD 2
/-- Overflow flag, never touched. -/
def mxOE (m : BitVec 32) : Bool := m.getLsbD 3
/-- Underflow flag, never touched. -/
def mxUE (m : BitVec 32) : Bool := m.getLsbD 4
/-- Precision flag, never touched. -/
def mxPE (m : BitVec 32) : Bool := m.getLsbD 5
/-- Denormals-are-zeros. -/
def mxDAZ (m : BitVec 32) : Bool := m.getLsbD 6
/-- Mask of the invalid-operation exception. -/
def mxIM (m : BitVec 32) : Bool := m.getLsbD 7
/-- Mask of the denormal-operand exception. -/
def mxDM (m : BitVec 32) : Bool := m.getLsbD 8
/-- Mask of the divide-by-zero exception. -/
def mxZM (m : BitVec 32) : Bool := m.getLsbD 9
/-- Mask of the overflow exception. -/
def mxOM (m : BitVec 32) : Bool := m.getLsbD 10
/-- Mask of the underflow exception. -/
def mxUM (m : BitVec 32) : Bool := m.getLsbD 11
/-- Mask of the precision exception. -/
def mxPM (m : BitVec 32) : Bool := m.getLsbD 12
/-- Rounding control, bits 14..13. -/
def mxRC (m : BitVec 32) : BitVec 2 := m.extractLsb' 13 2
/-- Flush-to-zero. -/
def mxFTZ (m : BitVec 32) : Bool := m.getLsbD 15
/-- The reserved bits 31..16. -/
def mxReserved (m : BitVec 32) : BitVec 16 := m.extractLsb' 16 16

/-- The flag word that IE and DE requests set: IE is bit 0, DE bit 1. -/
def flagWord (ie de : Bool) : BitVec 32 := (BitVec.ofBool de ++ BitVec.ofBool ie).setWidth 32

/-- `MXCSR.IE <- 1` and `MXCSR.DE <- 1` where requested; no other bit changes and no flag is cleared (10_state.md R19). -/
def State.setFlags (s : State) (ie de : Bool) : State := { s with mxcsr := s.mxcsr ||| flagWord ie de }

/-- A requested exception whose mask bit is 0 (60_exceptions.md R107). -/
def unmasked (m : BitVec 32) (ie de : Bool) : Bool := (ie && !mxIM m) || (de && !mxDM m)

end Sys2Proof.Machine
end

