-- ==== Sys2Proof/Machine/Operands.lean ====
section
/-! DEFINITION. Vector lengths and elements, effective addresses (30_encoding.md R49 to R53), the source value (41_vgetexpps.md R84) and the
writemask (R85). -/

namespace Sys2Proof.Machine

/-! ### Vector lengths and elements -/

/-- KL, the number of elements (00_scope.md R7). -/
def kl : VecLen → Nat
  | .v128 => 4
  | .v256 => 8
  | .v512 => 16

/-- VL in bits. -/
def vlBits (vl : VecLen) : Nat := 32 * kl vl

/-- VL/8, the bytes of a full-vector memory operand (20_memory.md R31). -/
def vlBytes (vl : VecLen) : Nat := 4 * kl vl

/-- Element `j`: bits 32j+31..32j (00_scope.md R8). -/
def lane (v : ZmmVal) (j : Nat) : Elem := v.extractLsb' (32 * j) 32

/-- The value whose elements 0..n-1 are `f 0` .. `f (n-1)` and whose other bits are 0. -/
def packLanes : Nat → (Nat → Elem) → ZmmVal
  | 0, _ => 0
  | n + 1, f => packLanes n f ||| ((f n).setWidth 512 <<< (32 * n))

/-- `v[VL-1:0]`, zero-extended (41_vgetexpps.md R84). -/
def lowBits (vl : VecLen) (v : ZmmVal) : ZmmVal := (v.setWidth (vlBits vl)).setWidth 512

/-! ### Effective addresses -/

/-- The displacement term; a one-byte displacement counts in units of `n` (30_encoding.md R52, R53). -/
def dispTerm (n : Nat) : Disp → Addr
  | .none => 0
  | .disp8 d => BitVec.ofNat 64 n * d.signExtend 64
  | .disp32 d => d.signExtend 64

/-- The index term `gpr[ix] * 2^scale`, or 0 (30_encoding.md R50). -/
def indexTerm (s : State) : Index → Addr
  | .none => 0
  | .scaled r scale => s.readGpr r <<< scale.toNat

/-- The effective address, modulo 2^64, of an operand of an instruction `len` bytes long whose disp8 scale is `n`
(30_encoding.md R49, R50, R51). -/
def effectiveAddress (n len : Nat) (s : State) : MemOp → Addr
  | .base r disp => s.readGpr r + dispTerm n disp
  | .ripRel d => s.nextRip len + d.signExtend 64
  | .sib r ix disp => s.readGpr r + indexTerm s ix + dispTerm n disp
  | .sibNoBase ix d => indexTerm s ix + d.signExtend 64

/-! ### The source -/

/-- The decoded source: `Reg(s)` or `Mem(EA, bcst)` (30_encoding.md R62). -/
inductive Source where
  | reg (r : VReg)
  | mem (ea : Addr) (bcst : Bool)
deriving DecidableEq, Repr

/-- The source of a full-vector memory form; N = VL/8 (30_encoding.md R53; 20_memory.md R31). -/
def fullSource (vl : VecLen) (len : Nat) (s : State) (m : MemOp) : Source :=
  .mem (effectiveAddress (vlBytes vl) len s m) false

/-- The source of a broadcast form; N = 4 (30_encoding.md R53; 20_memory.md R32). -/
def bcstSource (len : Nat) (s : State) (m : MemOp) : Source :=
  .mem (effectiveAddress 4 len s m) true

/-- The bytes a memory source reads: VL/8, or 4 for a broadcast (20_memory.md R31, R32). -/
def readSize (vl : VecLen) (bcst : Bool) : Nat := if bcst then 4 else vlBytes vl

/-- `SourceValue(VL, src)`; an error is the `MemFault(EA, n)` raised (41_vgetexpps.md R84). The mask plays no part (20_memory.md R38). -/
def sourceValue (vl : VecLen) (s : State) : Source → Except (Addr × Nat) ZmmVal
  | .reg r => .ok (lowBits vl (s.readZmm r))
  | .mem ea bcst =>
    match s.mem.readRange ea (readSize vl bcst) with
    | none => .error (ea, readSize vl bcst)
    | some bs =>
      .ok (if bcst then packLanes (kl vl) (fun _ => (packBytes bs).setWidth 32) else packBytes bs)

/-! ### The writemask -/

/-- Element `j` is computed: there is no writemask, or bit `j` of the selected opmask register is 1 (41_vgetexpps.md R85). -/
def selected (s : State) (aaa : KReg) (j : Nat) : Bool := aaa == 0 || (s.readK aaa).getLsbD j

end Sys2Proof.Machine
end

