-- ==== Sys2Proof/Machine/Getexp.lean ====
section
/-! DEFINITION. The vector operation (41_vgetexpps.md R83 to R89) and the meanings of the ten forms (R90 to R99). -/

namespace Sys2Proof.Machine

/-- The CPUID feature flags of a form: AVX512F, and AVX512VL unless VL is 512 (00_scope.md R2; 60_exceptions.md R103). -/
def featuresPresent (cfg : Config) : VecLen → Bool
  | .v128 => cfg.hasAVX512F && cfg.hasAVX512VL
  | .v256 => cfg.hasAVX512F && cfg.hasAVX512VL
  | .v512 => cfg.hasAVX512F

/-- What the element function makes of source element `j` (R83). -/
def elementAt (s : State) (S : ZmmVal) (j : Nat) : ElemResult := getExpSP (lane S j) (mxDAZ s.mxcsr)

/-- Result element `j`: computed, or merged from the old destination, or zero (R85). -/
def resultLane (s : State) (d : VReg) (S : ZmmVal) (aaa : KReg) (z : Bool) (j : Nat) : Elem :=
  if selected s aaa j then (elementAt s S j).res
  else if z then 0
  else lane (s.readZmm d) j

/-- A computed element is a signalling NaN: the request for IE (R83, R88). -/
def ieAny (vl : VecLen) (s : State) (S : ZmmVal) (aaa : KReg) : Bool :=
  (List.range (kl vl)).any fun j => selected s aaa j && (elementAt s S j).ie

/-- A computed element is a denormal and DAZ = 0: the request for DE (R83, R88). -/
def deAny (vl : VecLen) (s : State) (S : ZmmVal) (aaa : KReg) : Bool :=
  (List.range (kl vl)).any fun j => selected s aaa j && (elementAt s S j).de

/-- `zmm[d]` after the instruction: the result elements below VL and zero above (R86). -/
def resultVector (vl : VecLen) (s : State) (d : VReg) (S : ZmmVal) (aaa : KReg) (z : Bool) : ZmmVal :=
  packLanes (kl vl) (resultLane s d S aaa z)

/-- The flags set: none under `{sae}` (R88, R99). -/
def State.noteFlags (s : State) (sae ie de : Bool) : State := if sae then s else s.setFlags ie de

/-- The state a completed instruction leaves: flags, destination and `rip` written (R83). -/
def completed (vl : VecLen) (d : VReg) (S : ZmmVal) (aaa : KReg) (z sae : Bool) (len : Nat) (s : State) : State :=
  ((s.noteFlags sae (ieAny vl s S aaa) (deAny vl s S aaa)).writeZmm d (resultVector vl s d S aaa z)).advance len

/-- The part of `ExecVGETEXPPS` after the source is read (R83): `#XM`, or completion. -/
def finish (vl : VecLen) (d : VReg) (S : ZmmVal) (aaa : KReg) (z sae : Bool) (len : Nat) (s : State) : Outcome :=
  if !sae && unmasked s.mxcsr (ieAny vl s S aaa) (deAny vl s S aaa) then raise .xm s
  else .next (completed vl d S aaa z sae len s)

/-- `ExecVGETEXPPS(VL, d, src, aaa, z, sae, len)` (R83), in the order of 60_exceptions.md R112. A launch without OS_ENABLED is refused
(notes/assumptions/9.md); a missing feature is `#UD` (60_exceptions.md R103). -/
def vgetexpps (vl : VecLen) (d : VReg) (src : Source) (aaa : KReg) (z sae : Bool) (len : Nat) (s : State) : Outcome :=
  if !s.osEnabled then .refused .osNotEnabled
  else if !featuresPresent s.cfg vl then raise .ud s
  else match sourceValue vl s src with
    | .error (ea, n) => raise (fun rip => .memFault rip ea n) s
    | .ok S => finish vl d S aaa z sae len s

/-! ### The 128-bit forms -/

/-- `VGETEXPPS xmm1 {k1}{z}, xmm2` (R90). -/
def execVgetexpps128Reg (d r : VReg) (aaa : KReg) (z : Bool) (s : State) : Outcome :=
  vgetexpps .v128 d (.reg r) aaa z false (Instr.vgetexpps128Reg d r aaa z).length s

/-- `VGETEXPPS xmm1 {k1}{z}, m128` (R91). -/
def execVgetexpps128Mem (d : VReg) (m : MemOp) (aaa : KReg) (z : Bool) (s : State) : Outcome :=
  vgetexpps .v128 d (fullSource .v128 (Instr.vgetexpps128Mem d m aaa z).length s m) aaa z false
    (Instr.vgetexpps128Mem d m aaa z).length s

/-- `VGETEXPPS xmm1 {k1}{z}, m32bcst` (R92). -/
def execVgetexpps128Bcst (d : VReg) (m : MemOp) (aaa : KReg) (z : Bool) (s : State) : Outcome :=
  vgetexpps .v128 d (bcstSource (Instr.vgetexpps128Bcst d m aaa z).length s m) aaa z false
    (Instr.vgetexpps128Bcst d m aaa z).length s

/-! ### The 256-bit forms -/

/-- `VGETEXPPS ymm1 {k1}{z}, ymm2` (R93). -/
def execVgetexpps256Reg (d r : VReg) (aaa : KReg) (z : Bool) (s : State) : Outcome :=
  vgetexpps .v256 d (.reg r) aaa z false (Instr.vgetexpps256Reg d r aaa z).length s

/-- `VGETEXPPS ymm1 {k1}{z}, m256` (R94). -/
def execVgetexpps256Mem (d : VReg) (m : MemOp) (aaa : KReg) (z : Bool) (s : State) : Outcome :=
  vgetexpps .v256 d (fullSource .v256 (Instr.vgetexpps256Mem d m aaa z).length s m) aaa z false
    (Instr.vgetexpps256Mem d m aaa z).length s

/-- `VGETEXPPS ymm1 {k1}{z}, m32bcst` (R95). -/
def execVgetexpps256Bcst (d : VReg) (m : MemOp) (aaa : KReg) (z : Bool) (s : State) : Outcome :=
  vgetexpps .v256 d (bcstSource (Instr.vgetexpps256Bcst d m aaa z).length s m) aaa z false
    (Instr.vgetexpps256Bcst d m aaa z).length s

/-! ### The 512-bit forms -/

/-- `VGETEXPPS zmm1 {k1}{z}, zmm2` (R96). -/
def execVgetexpps512Reg (d r : VReg) (aaa : KReg) (z : Bool) (s : State) : Outcome :=
  vgetexpps .v512 d (.reg r) aaa z false (Instr.vgetexpps512Reg d r aaa z).length s

/-- `VGETEXPPS zmm1 {k1}{z}, m512` (R97). -/
def execVgetexpps512Mem (d : VReg) (m : MemOp) (aaa : KReg) (z : Bool) (s : State) : Outcome :=
  vgetexpps .v512 d (fullSource .v512 (Instr.vgetexpps512Mem d m aaa z).length s m) aaa z false
    (Instr.vgetexpps512Mem d m aaa z).length s

/-- `VGETEXPPS zmm1 {k1}{z}, m32bcst` (R98). -/
def execVgetexpps512Bcst (d : VReg) (m : MemOp) (aaa : KReg) (z : Bool) (s : State) : Outcome :=
  vgetexpps .v512 d (bcstSource (Instr.vgetexpps512Bcst d m aaa z).length s m) aaa z false
    (Instr.vgetexpps512Bcst d m aaa z).length s

/-- `VGETEXPPS zmm1 {k1}{z}, zmm2{sae}` (R99): no flag, no `#XM` (60_exceptions.md R108). -/
def execVgetexpps512RegSae (d r : VReg) (aaa : KReg) (z : Bool) (s : State) : Outcome :=
  vgetexpps .v512 d (.reg r) aaa z true (Instr.vgetexpps512RegSae d r aaa z).length s

end Sys2Proof.Machine
end

