-- ==== Sys2Proof/Machine/Dispatch.lean ====
section
/-! DEFINITION. One arm per constructor of Instr, each one call of its meaning. -/

namespace Sys2Proof.Machine

def exec (i : Instr) (s : State) : Host.Outcome State Fault Refusal :=
  match i with
  | .vgetexpps128Reg d r aaa z => Sys2Proof.Machine.execVgetexpps128Reg d r aaa z s
  | .vgetexpps128Mem d m aaa z => Sys2Proof.Machine.execVgetexpps128Mem d m aaa z s
  | .vgetexpps128Bcst d m aaa z => Sys2Proof.Machine.execVgetexpps128Bcst d m aaa z s
  | .vgetexpps256Reg d r aaa z => Sys2Proof.Machine.execVgetexpps256Reg d r aaa z s
  | .vgetexpps256Mem d m aaa z => Sys2Proof.Machine.execVgetexpps256Mem d m aaa z s
  | .vgetexpps256Bcst d m aaa z => Sys2Proof.Machine.execVgetexpps256Bcst d m aaa z s
  | .vgetexpps512Reg d r aaa z => Sys2Proof.Machine.execVgetexpps512Reg d r aaa z s
  | .vgetexpps512Mem d m aaa z => Sys2Proof.Machine.execVgetexpps512Mem d m aaa z s
  | .vgetexpps512Bcst d m aaa z => Sys2Proof.Machine.execVgetexpps512Bcst d m aaa z s
  | .vgetexpps512RegSae d r aaa z => Sys2Proof.Machine.execVgetexpps512RegSae d r aaa z s

end Sys2Proof.Machine
end

