-- ==== Sys2Proof/Machine/Fetch.lean ====
section
/-! DEFINITION. What a step does with what it decoded, in the order of 60_exceptions.md R112. -/

namespace Sys2Proof.Machine

/-- Run a decoded instruction, or end as decoding says: `MemFault(rip, len)`, a refusal, or `#UD` (60_exceptions.md R112 steps 1 to 3). -/
def runDecoded (r : Decoded) (s : State) : Outcome :=
  match r with
  | .ok i => exec i s
  | .ud => raise .ud s
  | .notVgetexpps => .refused .notVgetexpps
  | .saeWithOtherLL => .refused .saeWithOtherLL
  | .truncated need => raise (fun rip => .memFault rip rip need) s

end Sys2Proof.Machine
end

