-- ==== Sys2Proof/Machine/Step.lean ====
section
/-! DEFINITION. One step of the machine, and the state in which the next step runs a given word. -/

namespace Sys2Proof.Machine

/-- Fetch, decode and execute the instruction at `rip`, in 64-bit mode (60_exceptions.md R112, R117; 00_scope.md R3). -/
def step (s : State) : Host.Outcome State Fault Refusal :=
  if s.modeAdmitted then runDecoded s.fetchDecode s else .refused .otherMode

/-- The state with an instruction word of the opcode table placed at `rip` (notes/assumptions/5.md, 21.md). -/
def State.withFetchWord (s : State) (nbits w : Nat) : State := s.loadBytes s.rip.toNat (tableWordBytes nbits w)

end Sys2Proof.Machine
end

