-- ==== Sys2Proof/Machine/Asm.lean ====
section
/-! DEFINITION. The assembler syntax (30_encoding.md R64, Intel and AT&T spellings) and the twelve compiler intrinsics (R66): text about the
instruction, which no step reads. -/

namespace Sys2Proof.Machine

/-- The text between braces; the brace characters are 123 and 125. -/
def braced (t : String) : String := String.singleton (Char.ofNat 123) ++ t ++ String.singleton (Char.ofNat 125)

/-- The names of the general registers in order of number (10_state.md R20). -/
def gprName (r : GReg) : String :=
  ["rax", "rcx", "rdx", "rbx", "rsp", "rbp", "rsi", "rdi", "r8", "r9", "r10", "r11", "r12", "r13", "r14", "r15"].getD
    r.toNat ""

/-- `xmm`, `ymm` or `zmm` and the register number (10_state.md R13). -/
def vregName (vl : VecLen) (r : VReg) : String :=
  (match vl with | .v128 => "xmm" | .v256 => "ymm" | .v512 => "zmm") ++ toString r.toNat

/-- The keyword of a full-vector memory operand. -/
def vecPtr (vl : VecLen) : String :=
  match vl with | .v128 => "xmmword ptr " | .v256 => "ymmword ptr " | .v512 => "zmmword ptr "

/-- The broadcast decoration: 1to4, 1to8 or 1to16 in braces. -/
def bcstMark (vl : VecLen) : String := braced ("1to" ++ toString (kl vl))

/-- The destination with its writemask and zeroing decorations (30_encoding.md R55, R56). -/
def destText (vl : VecLen) (d : VReg) (aaa : KReg) (z : Bool) : String :=
  vregName vl d ++ (if aaa = 0 then "" else braced ("k" ++ toString aaa.toNat)) ++ (if z then braced "z" else "")

/-- A number after what stands before it: with its sign, and left out when it is 0. -/
def signedText (i : Int) : String :=
  if i = 0 then "" else if i < 0 then "-" ++ toString i.natAbs else "+" ++ toString i.natAbs

/-- The displacement as the number added: N times a one-byte displacement (30_encoding.md R53). -/
def dispText (n : Nat) : Disp → String
  | .none => ""
  | .disp8 d => signedText (n * d.toInt)
  | .disp32 d => signedText d.toInt

/-- An index term after a base. -/
def indexText : Index → String
  | .none => ""
  | .scaled r scale => "+" ++ gprName r ++ "*" ++ toString (2 ^ scale.toNat)

/-- A memory operand in square brackets. -/
def memText (n : Nat) : MemOp → String
  | .base r disp => "[" ++ gprName r ++ dispText n disp ++ "]"
  | .ripRel d => "[rip" ++ signedText d.toInt ++ "]"
  | .sib r ix disp => "[" ++ gprName r ++ indexText ix ++ dispText n disp ++ "]"
  | .sibNoBase .none d => "[" ++ toString (d.signExtend 64).toNat ++ "]"
  | .sibNoBase (.scaled r scale) d =>
    "[" ++ gprName r ++ "*" ++ toString (2 ^ scale.toNat) ++ signedText d.toInt ++ "]"

/-- The text of a register form. -/
def regText (vl : VecLen) (d r : VReg) (aaa : KReg) (z : Bool) : String :=
  "vgetexpps " ++ destText vl d aaa z ++ ", " ++ vregName vl r

/-- The text of a full-vector memory form. -/
def fullText (vl : VecLen) (d : VReg) (m : MemOp) (aaa : KReg) (z : Bool) : String :=
  "vgetexpps " ++ destText vl d aaa z ++ ", " ++ vecPtr vl ++ memText (vlBytes vl) m

/-- The text of a broadcast form. -/
def bcstText (vl : VecLen) (d : VReg) (m : MemOp) (aaa : KReg) (z : Bool) : String :=
  "vgetexpps " ++ destText vl d aaa z ++ ", dword ptr " ++ memText 4 m ++ bcstMark vl

/-- The assembler text of an instruction (30_encoding.md R64). -/
def asmText : Instr → String
  | .vgetexpps128Reg d r aaa z    => regText .v128 d r aaa z
  | .vgetexpps128Mem d m aaa z    => fullText .v128 d m aaa z
  | .vgetexpps128Bcst d m aaa z   => bcstText .v128 d m aaa z
  | .vgetexpps256Reg d r aaa z    => regText .v256 d r aaa z
  | .vgetexpps256Mem d m aaa z    => fullText .v256 d m aaa z
  | .vgetexpps256Bcst d m aaa z   => bcstText .v256 d m aaa z
  | .vgetexpps512Reg d r aaa z    => regText .v512 d r aaa z
  | .vgetexpps512Mem d m aaa z    => fullText .v512 d m aaa z
  | .vgetexpps512Bcst d m aaa z   => bcstText .v512 d m aaa z
  | .vgetexpps512RegSae d r aaa z => regText .v512 d r aaa z ++ ", " ++ braced "sae"

/-! ### AT&T spelling: the operands in the other order (30_encoding.md R64) -/

/-- The destination as AT&T writes it. -/
def attDest (vl : VecLen) (d : VReg) (aaa : KReg) (z : Bool) : String :=
  "%" ++ vregName vl d ++ (if aaa = 0 then "" else braced ("%k" ++ toString aaa.toNat)) ++ (if z then braced "z" else "")

/-- A displacement before the parenthesis, left out when it is 0. -/
def attDisp (i : Int) : String :=
  if i = 0 then "" else if i < 0 then "-" ++ toString i.natAbs else toString i.natAbs

/-- The number a displacement adds. -/
def dispNumber (n : Nat) : Disp → Int
  | .none => 0
  | .disp8 d => n * d.toInt
  | .disp32 d => d.toInt

/-- The index part inside the parenthesis. -/
def attIndex : Index → String
  | .none => ""
  | .scaled r scale => ",%" ++ gprName r ++ "," ++ toString (2 ^ scale.toNat)

/-- A memory operand as AT&T writes it. -/
def attMem (n : Nat) : MemOp → String
  | .base r disp => attDisp (dispNumber n disp) ++ "(%" ++ gprName r ++ ")"
  | .ripRel d => attDisp d.toInt ++ "(%rip)"
  | .sib r ix disp => attDisp (dispNumber n disp) ++ "(%" ++ gprName r ++ attIndex ix ++ ")"
  | .sibNoBase .none d => toString (d.signExtend 64).toNat
  | .sibNoBase (.scaled r scale) d => attDisp d.toInt ++ "(" ++ attIndex (.scaled r scale) ++ ")"

/-- The AT&T text of a register form. -/
def attReg (vl : VecLen) (d r : VReg) (aaa : KReg) (z : Bool) : String :=
  "%" ++ vregName vl r ++ ", " ++ attDest vl d aaa z

/-- The AT&T text of an instruction. -/
def attText : Instr → String
  | .vgetexpps128Reg d r aaa z    => "vgetexpps " ++ attReg .v128 d r aaa z
  | .vgetexpps128Mem d m aaa z    => "vgetexpps " ++ attMem 16 m ++ ", " ++ attDest .v128 d aaa z
  | .vgetexpps128Bcst d m aaa z   => "vgetexpps " ++ attMem 4 m ++ bcstMark .v128 ++ ", " ++ attDest .v128 d aaa z
  | .vgetexpps256Reg d r aaa z    => "vgetexpps " ++ attReg .v256 d r aaa z
  | .vgetexpps256Mem d m aaa z    => "vgetexpps " ++ attMem 32 m ++ ", " ++ attDest .v256 d aaa z
  | .vgetexpps256Bcst d m aaa z   => "vgetexpps " ++ attMem 4 m ++ bcstMark .v256 ++ ", " ++ attDest .v256 d aaa z
  | .vgetexpps512Reg d r aaa z    => "vgetexpps " ++ attReg .v512 d r aaa z
  | .vgetexpps512Mem d m aaa z    => "vgetexpps " ++ attMem 64 m ++ ", " ++ attDest .v512 d aaa z
  | .vgetexpps512Bcst d m aaa z   => "vgetexpps " ++ attMem 4 m ++ bcstMark .v512 ++ ", " ++ attDest .v512 d aaa z
  | .vgetexpps512RegSae d r aaa z => "vgetexpps " ++ braced "sae" ++ ", " ++ attReg .v512 d r aaa z

/-! ### Intrinsics -/

/-- How an intrinsic uses a writemask (30_encoding.md R66). -/
inductive MaskUse where
  | none
  | merging
  | zeroing
deriving DecidableEq, Repr

/-- A prototype of 30_encoding.md R66 and the form its name selects; `sae`: whether an argument selects `{sae}`. -/
structure Intrinsic where
  name   : String
  result : String
  params : List String
  vl     : VecLen
  mask   : MaskUse
  sae    : Bool
deriving DecidableEq, Repr

/-- The 512-bit intrinsics (30_encoding.md R66). -/
def intrinsics512 : List Intrinsic :=
  [ { name := "_mm512_getexp_ps", result := "__m512", params := ["__m512 a"], vl := .v512, mask := .none, sae := false },
    { name := "_mm512_mask_getexp_ps", result := "__m512", params := ["__m512 s", "__mmask16 k", "__m512 a"],
      vl := .v512, mask := .merging, sae := false },
    { name := "_mm512_maskz_getexp_ps", result := "__m512", params := ["__mmask16 k", "__m512 a"],
      vl := .v512, mask := .zeroing, sae := false },
    { name := "_mm512_getexp_round_ps", result := "__m512", params := ["__m512 a", "int sae"],
      vl := .v512, mask := .none, sae := true },
    { name := "_mm512_mask_getexp_round_ps", result := "__m512",
      params := ["__m512 s", "__mmask16 k", "__m512 a", "int sae"], vl := .v512, mask := .merging, sae := true },
    { name := "_mm512_maskz_getexp_round_ps", result := "__m512", params := ["__mmask16 k", "__m512 a", "int sae"],
      vl := .v512, mask := .zeroing, sae := true } ]

/-- The 256-bit and 128-bit intrinsics (30_encoding.md R66). -/
def intrinsics256and128 : List Intrinsic :=
  [ { name := "_mm256_getexp_ps", result := "__m256", params := ["__m256 a"], vl := .v256, mask := .none, sae := false },
    { name := "_mm256_mask_getexp_ps", result := "__m256", params := ["__m256 s", "__mmask8 k", "__m256 a"],
      vl := .v256, mask := .merging, sae := false },
    { name := "_mm256_maskz_getexp_ps", result := "__m256", params := ["__mmask8 k", "__m256 a"],
      vl := .v256, mask := .zeroing, sae := false },
    { name := "_mm_getexp_ps", result := "__m128", params := ["__m128 a"], vl := .v128, mask := .none, sae := false },
    { name := "_mm_mask_getexp_ps", result := "__m128", params := ["__m128 s", "__mmask8 k", "__m128 a"],
      vl := .v128, mask := .merging, sae := false },
    { name := "_mm_maskz_getexp_ps", result := "__m128", params := ["__mmask8 k", "__m128 a"],
      vl := .v128, mask := .zeroing, sae := false } ]

/-- The twelve intrinsics (30_encoding.md R66). -/
def intrinsics : List Intrinsic := intrinsics512 ++ intrinsics256and128

end Sys2Proof.Machine
end

