-- ==== Sys2Proof/WellFormed.lean ====
section
/-! DEFINITION. Which terms of the syntax an encoding exists for (30_encoding.md R49, R50, R56). -/

namespace Sys2Proof

/-- Zeroing needs a writemask: `z` = 1 with `aaa` = 000 is reserved (30_encoding.md R56). -/
def maskWellFormed (aaa : KReg) (z : Bool) : Bool :=
  !(z && aaa == 0)

/-- An index register is never number 4, whose field value means "no index" (30_encoding.md R50). -/
def Index.wellFormed : Index → Bool
  | .none => true
  | .scaled r _ => r != 4

/-- Without SIB, r/m = 100 means that a SIB byte follows, and mod = 00 with r/m = 101 is RIP-relative (30_encoding.md R49); with SIB,
mod = 00 and base field 101 means no base (R50). -/
def MemOp.wellFormed : MemOp → Bool
  | .base r .none => r.extractLsb' 0 3 != 4#3 && r.extractLsb' 0 3 != 5#3
  | .base r _ => r.extractLsb' 0 3 != 4#3
  | .ripRel _ => true
  | .sib r ix .none => ix.wellFormed && r.extractLsb' 0 3 != 5#3
  | .sib _ ix _ => ix.wellFormed
  | .sibNoBase ix _ => ix.wellFormed

/-- An instruction is well formed when its mask setting and its memory operand are. -/
def Instr.wellFormed : Instr → Bool
  | .vgetexpps128Reg _ _ aaa z    => maskWellFormed aaa z
  | .vgetexpps128Mem _ m aaa z    => m.wellFormed && maskWellFormed aaa z
  | .vgetexpps128Bcst _ m aaa z   => m.wellFormed && maskWellFormed aaa z
  | .vgetexpps256Reg _ _ aaa z    => maskWellFormed aaa z
  | .vgetexpps256Mem _ m aaa z    => m.wellFormed && maskWellFormed aaa z
  | .vgetexpps256Bcst _ m aaa z   => m.wellFormed && maskWellFormed aaa z
  | .vgetexpps512Reg _ _ aaa z    => maskWellFormed aaa z
  | .vgetexpps512Mem _ m aaa z    => m.wellFormed && maskWellFormed aaa z
  | .vgetexpps512Bcst _ m aaa z   => m.wellFormed && maskWellFormed aaa z
  | .vgetexpps512RegSae _ _ aaa z => maskWellFormed aaa z

end Sys2Proof
end

