-- ==== Sys2Proof/Safety.lean ====
section
/-! DEFINITION. The terms claims use: the operands of an instruction by name, the launch premises, the machine's invariant, the end of a
run, the values of elements as numbers, and what a completed instruction leaves. -/

namespace Sys2Proof

/-! ### The operands of an instruction -/

/-- The register forms without `{sae}`: 128 reg, 256 reg, 512 reg (30_encoding.md R63). -/
def regForm (vl : VecLen) (d r : VReg) (aaa : KReg) (z : Bool) : Instr :=
  match vl with
  | .v128 => .vgetexpps128Reg d r aaa z
  | .v256 => .vgetexpps256Reg d r aaa z
  | .v512 => .vgetexpps512Reg d r aaa z

/-- The full-vector memory forms: 128 mem, 256 mem, 512 mem. -/
def fullForm (vl : VecLen) (d : VReg) (m : MemOp) (aaa : KReg) (z : Bool) : Instr :=
  match vl with
  | .v128 => .vgetexpps128Mem d m aaa z
  | .v256 => .vgetexpps256Mem d m aaa z
  | .v512 => .vgetexpps512Mem d m aaa z

/-- The broadcast forms: 128 bcst, 256 bcst, 512 bcst. -/
def bcstForm (vl : VecLen) (d : VReg) (m : MemOp) (aaa : KReg) (z : Bool) : Instr :=
  match vl with
  | .v128 => .vgetexpps128Bcst d m aaa z
  | .v256 => .vgetexpps256Bcst d m aaa z
  | .v512 => .vgetexpps512Bcst d m aaa z

/-- The vector length of a form (30_encoding.md R63). -/
def Instr.vecLen : Instr → VecLen
  | .vgetexpps128Reg _ _ _ _ | .vgetexpps128Mem _ _ _ _ | .vgetexpps128Bcst _ _ _ _ => .v128
  | .vgetexpps256Reg _ _ _ _ | .vgetexpps256Mem _ _ _ _ | .vgetexpps256Bcst _ _ _ _ => .v256
  | .vgetexpps512Reg _ _ _ _ | .vgetexpps512Mem _ _ _ _ | .vgetexpps512Bcst _ _ _ _
  | .vgetexpps512RegSae _ _ _ _ => .v512

/-- The destination register's number, the writemask number and the zeroing bit. -/
def Instr.dest (i : Instr) : VReg := i.fields.d
def Instr.maskReg (i : Instr) : KReg := i.fields.aaa
def Instr.zeroing (i : Instr) : Bool := i.fields.z

/-- The `{sae}` form (41_vgetexpps.md R99). -/
def Instr.isSae : Instr → Bool
  | .vgetexpps512RegSae _ _ _ _ => true
  | .vgetexpps128Reg _ _ _ _ | .vgetexpps128Mem _ _ _ _ | .vgetexpps128Bcst _ _ _ _
  | .vgetexpps256Reg _ _ _ _ | .vgetexpps256Mem _ _ _ _ | .vgetexpps256Bcst _ _ _ _
  | .vgetexpps512Reg _ _ _ _ | .vgetexpps512Mem _ _ _ _ | .vgetexpps512Bcst _ _ _ _ => false

/-- The SIB and displacement bytes that follow a ModRM byte `m`, `sib` being the byte after it (30_encoding.md R60). -/
def tailBytes (m sib : Byte) : Nat :=
  (if bits76 m ≠ 3 ∧ bits20 m = 4 then 1 else 0) +
  (if bits76 m = 1 then 1
   else if bits76 m = 2 then 4
   else if bits76 m = 0 ∧ bits20 m = 5 then 4
   else if bits76 m = 0 ∧ bits20 m = 4 ∧ bits20 sib = 5 then 4
   else 0)

namespace Machine

/-! ### Launch, invariant, end of a run -/

/-- The premises of a launch state (10_state.md R27 (a), (b)). -/
def LaunchPremise (s : State) : Prop := s.mode = .bits64 ∧ s.osEnabled = true

/-- The premise of claims that need masked exceptions: IM = 1 and DM = 1 (10_state.md R27, 60_exceptions.md R107). -/
def MaskedExceptions (s : State) : Prop := mxIM s.mxcsr = true ∧ mxDM s.mxcsr = true

/-- No bit of an opmask register stands above K_WIDTH (10_state.md R16). -/
def OpmasksFit (s : State) : Prop := ∀ a : KReg, s.readK a = s.k[a.toNat]'a.isLt

/-- The machine's invariant: memory in its canonical form, the reserved bits of MXCSR zero (10_state.md R18), the opmask registers of
K_WIDTH bits, the launch premises. -/
structure Inv (s : State) : Prop where
  memWf    : s.mem.wf = true
  reserved : mxReserved s.mxcsr = 0
  opmasks  : OpmasksFit s
  launch   : LaunchPremise s

/-- A final state of a run that ends at `endAddr` = END_ADDR: nothing is said of what the chip does there (70_reset_and_hazards.md R126). -/
def Final (endAddr : Addr) (s : State) : Prop := s.rip = endAddr

/-- How a run ends (70_reset_and_hazards.md R126; 60_exceptions.md R110, R111). -/
inductive RunResult where
  /-- `rip` = END_ADDR, with no fault and no refusal recorded -/
  | final (s : State)
  /-- over and not final; the state is the one before the instruction that raised -/
  | faulted (s : State) (f : Fault)
  /-- over and not final; nothing changed -/
  | refused (s : State) (r : Refusal)
  /-- not over after the steps allowed -/
  | running (s : State)
deriving DecidableEq, Repr

/-- At most `fuel` steps of a run whose END_ADDR is `endAddr`. -/
def run (endAddr : Addr) : Nat → State → RunResult
  | 0, s => if s.rip = endAddr then .final s else .running s
  | fuel + 1, s =>
    if s.rip = endAddr then .final s
    else match step s with
      | .next t => run endAddr fuel t
      | .fault f => .faulted s f
      | .refused r => .refused s r

/-- The vector number of a fault, for a reader who embeds the model (60_exceptions.md R114): the machine does not use it, and a memory
fault stands for several. -/
def Fault.vector : Fault → Option Nat
  | .ud _ => some 6
  | .xm _ => some 19
  | .memFault _ _ _ => none

/-- CPUID leaf 7, sub-leaf 0, EBX: AVX512F is bit 16 and AVX512VL bit 31 (70_reset_and_hazards.md R121), the other bits 0. -/
def cpuid7Ebx (cfg : Config) : BitVec 32 :=
  (if cfg.hasAVX512F then 0x00010000 else 0) ||| (if cfg.hasAVX512VL then 0x80000000 else 0)

/-! ### Elements as numbers -/

/-- 2^149 times the magnitude of a finite element, a whole number: `f` for zeros and denormals, `(2^23 + f) * 2^(e-1)` for normals
(00_scope.md R12, 40_getexp_element.md R68, R74). -/
def scaledAbs (x : Elem) : Nat :=
  if biasedExp x = 0 then (fraction x).toNat
  else (2 ^ 23 + (fraction x).toNat) * 2 ^ ((biasedExp x).toNat - 1)

/-- 2^149 times the value of a finite element, sign included. -/
def scaledValue (x : Elem) : Int := if x.getLsbD 31 then - (scaledAbs x : Int) else (scaledAbs x : Int)

/-- A finite element: a zero, a denormal or a normal. -/
def isFinite (x : Elem) : Bool := biasedExp x != 255

/-! ### What an instruction reads -/

/-- The four bytes at an address as an element, the lowest address least significant (20_memory.md R30); a byte that memory does not
admit counts as 0, which no claim uses. -/
def memElem (m : Memory) (a : Nat) : Elem :=
  (m.read (a + 3)).getD 0 ++ (m.read (a + 2)).getD 0 ++ (m.read (a + 1)).getD 0 ++ (m.read a).getD 0

/-- The address and the number of bytes of the one data read a form makes; none for the register forms (20_memory.md R29, R31, R32;
30_encoding.md R53). -/
def operandRange (i : Instr) (s : State) : Option (Addr × Nat) :=
  match i with
  | .vgetexpps128Mem _ m _ _  => some (effectiveAddress 16 i.length s m, 16)
  | .vgetexpps256Mem _ m _ _  => some (effectiveAddress 32 i.length s m, 32)
  | .vgetexpps512Mem _ m _ _  => some (effectiveAddress 64 i.length s m, 64)
  | .vgetexpps128Bcst _ m _ _ => some (effectiveAddress 4 i.length s m, 4)
  | .vgetexpps256Bcst _ m _ _ => some (effectiveAddress 4 i.length s m, 4)
  | .vgetexpps512Bcst _ m _ _ => some (effectiveAddress 4 i.length s m, 4)
  | .vgetexpps128Reg _ _ _ _ | .vgetexpps256Reg _ _ _ _ | .vgetexpps512Reg _ _ _ _ | .vgetexpps512RegSae _ _ _ _ => none

/-- `Admit(addr, n)`: the range does not wrap and every byte of it has a value (20_memory.md R37; notes/assumptions/4.md). -/
def Admit (m : Memory) (a : Addr) (n : Nat) : Prop :=
  a.toNat + n ≤ 2 ^ 64 ∧ ∀ k < n, (m.read (a.toNat + k)).isSome = true

/-- The operand's bytes are admitted; no condition for a register form. -/
def OperandAdmitted (i : Instr) (s : State) : Prop :=
  ∀ ea n, operandRange i s = some (ea, n) → Admit s.mem ea n

/-- Source element `j`: of the source register, of the operand in memory, or of the one broadcast element (41_vgetexpps.md R84). -/
def sourceElem (i : Instr) (s : State) (j : Nat) : Elem :=
  match i with
  | .vgetexpps128Reg _ r _ _ | .vgetexpps256Reg _ r _ _ | .vgetexpps512Reg _ r _ _ | .vgetexpps512RegSae _ r _ _ =>
    (s.readZmm r).extractLsb' (32 * j) 32
  | .vgetexpps128Mem _ m _ _  => memElem s.mem ((effectiveAddress 16 i.length s m).toNat + 4 * j)
  | .vgetexpps256Mem _ m _ _  => memElem s.mem ((effectiveAddress 32 i.length s m).toNat + 4 * j)
  | .vgetexpps512Mem _ m _ _  => memElem s.mem ((effectiveAddress 64 i.length s m).toNat + 4 * j)
  | .vgetexpps128Bcst _ m _ _ => memElem s.mem (effectiveAddress 4 i.length s m).toNat
  | .vgetexpps256Bcst _ m _ _ => memElem s.mem (effectiveAddress 4 i.length s m).toNat
  | .vgetexpps512Bcst _ m _ _ => memElem s.mem (effectiveAddress 4 i.length s m).toNat

/-! ### When an instruction completes, and what it leaves -/

/-- The conditions to execute that are not about operands: OS_ENABLED and the form's feature flags (10_state.md R27, 60_exceptions.md
R103). -/
def Enabled (i : Instr) (s : State) : Prop :=
  s.osEnabled = true ∧ s.cfg.hasAVX512F = true ∧ (i.vecLen = .v512 ∨ s.cfg.hasAVX512VL = true)

/-- Element `j` is computed (41_vgetexpps.md R85). -/
def Computed (i : Instr) (s : State) (j : Nat) : Prop :=
  i.maskReg = 0 ∨ (s.readK i.maskReg).getLsbD j = true

/-- Some computed element is a signalling NaN (60_exceptions.md R104). -/
def RequestsIE (i : Instr) (s : State) : Prop :=
  ∃ j < kl i.vecLen, Computed i s j ∧ isSNaN (sourceElem i s j) = true

/-- DAZ = 0 and some computed element is a denormal (60_exceptions.md R105). -/
def RequestsDE (i : Instr) (s : State) : Prop :=
  mxDAZ s.mxcsr = false ∧ ∃ j < kl i.vecLen, Computed i s j ∧ isDenormal (sourceElem i s j) = true

/-- A requested exception has its mask bit 0 (60_exceptions.md R107). -/
def UnmaskedRequest (i : Instr) (s : State) : Prop :=
  (RequestsIE i s ∧ mxIM s.mxcsr = false) ∨ (RequestsDE i s ∧ mxDM s.mxcsr = false)

/-- The destination and `rip` after a completed instruction (41_vgetexpps.md R83, R85, R86, R89). -/
structure ResultOf (i : Instr) (s t : State) : Prop where
  computed : ∀ j < kl i.vecLen, Computed i s j →
    (t.readZmm i.dest).extractLsb' (32 * j) 32 = (getExpSP (sourceElem i s j) (mxDAZ s.mxcsr)).res
  merged   : ∀ j < kl i.vecLen, ¬ Computed i s j → i.zeroing = false →
    (t.readZmm i.dest).extractLsb' (32 * j) 32 = (s.readZmm i.dest).extractLsb' (32 * j) 32
  zeroed   : ∀ j < kl i.vecLen, ¬ Computed i s j → i.zeroing = true →
    (t.readZmm i.dest).extractLsb' (32 * j) 32 = 0
  upper    : ∀ b, 32 * kl i.vecLen ≤ b → (t.readZmm i.dest).getLsbD b = false
  rip      : t.rip = s.rip + BitVec.ofNat 64 i.length

/-- IE and DE after a completed instruction without `{sae}` (10_state.md R19, 41_vgetexpps.md R88). -/
structure FlagsOf (i : Instr) (s t : State) : Prop where
  ie    : mxIE t.mxcsr = true ↔ mxIE s.mxcsr = true ∨ RequestsIE i s
  de    : mxDE t.mxcsr = true ↔ mxDE s.mxcsr = true ∨ RequestsDE i s
  other : ∀ b, 2 ≤ b → t.mxcsr.getLsbD b = s.mxcsr.getLsbD b

/-- What a completed instruction leaves unchanged: every vector register but the destination, the opmask and general registers, every
byte of memory, the mode, OS_ENABLED and the parameters (10_state.md R23). -/
structure FrameOf (d : VReg) (s t : State) : Prop where
  zmm       : ∀ r, r ≠ d → t.readZmm r = s.readZmm r
  k         : t.k = s.k
  gpr       : t.gpr = s.gpr
  memory    : ∀ a, t.mem.read a = s.mem.read a
  mode      : t.mode = s.mode
  osEnabled : t.osEnabled = s.osEnabled
  cfg       : t.cfg = s.cfg

end Machine

end Sys2Proof
end

