-- ==== Sys2Proof/Certificates/Slice0/Obligations.lean ====
section
/-! DEFINITION. The statements for the provers. Each docstring names the rules of spec/ it formalises; a clause that rests on a decision
of the spec or on its general knowledge says so, and such a statement has basis 'derived'. -/

open Sys2Proof Sys2Proof.Machine

/-! ### Encoding and decoding -/

/-- 30_encoding.md R44 to R56, R62 (general knowledge G1 to G4, notes/assumptions/13.md): the decoder gives back every well-formed instruction
from its encoding, whatever bytes follow and whatever SAE_IGNORES_LL is. -/
def Obligations.DecodeEncode : Prop :=
  ∀ (i : Instr) (saeIgnoresLL : Bool) (rest : List Byte), i.wellFormed = true →
    decode saeIgnoresLL (encode i ++ rest) = .ok i

/-- 30_encoding.md R62, R63: what the decoder accepts is a well-formed instruction, it lies within the bytes given, and only its own bytes
count. -/
def Obligations.DecodeAnswersWellFormed : Prop :=
  ∀ (saeIgnoresLL : Bool) (bs : List Byte) (i : Instr), decode saeIgnoresLL bs = .ok i →
    i.wellFormed = true ∧ i.length ≤ bs.length ∧ decode saeIgnoresLL (bs.take i.length) = .ok i

/-- 30_encoding.md R46, R48: a register form is one six-byte word: with SAE_IGNORES_LL false, encoding what was decoded gives the bytes
back. -/
def Obligations.EncodeDecodeRegisterForms : Prop :=
  ∀ (bs : List Byte) (i : Instr) (d r : VReg) (aaa : KReg) (z : Bool) (vl : VecLen),
    decode false bs = .ok i → (i = regForm vl d r aaa z ∨ i = .vgetexpps512RegSae d r aaa z) →
    bs.take 6 = encode i

/-- 30_encoding.md R60: the length of an accepted instruction is 6 + sib + disp, computed from the ModRM byte and the byte after it; it is 6 to
11, and 6 for the register forms. -/
def Obligations.LengthOfDecoded : Prop :=
  ∀ (saeIgnoresLL : Bool) (b0 p0 p1 p2 op m : Byte) (rest : List Byte) (i : Instr),
    decode saeIgnoresLL (b0 :: p0 :: p1 :: p2 :: op :: m :: rest) = .ok i →
    i.length = 6 + tailBytes m (rest.headD 0) ∧ 6 ≤ i.length ∧ i.length ≤ 11 ∧ (bits76 m = 3 → i.length = 6)

/-- 30_encoding.md R63, opcode_table.json: the first six bytes of an encoded well-formed instruction match the row of its own form, under the row's
constraint on ModRM.mod, and of no other form. -/
def Obligations.EncodingMatchesItsRowOnly : Prop :=
  ∀ (i j : Instr) (b0 b1 b2 b3 b4 b5 : Byte) (rest : List Byte), i.wellFormed = true →
    encode i = b0 :: b1 :: b2 :: b3 :: b4 :: b5 :: rest →
    (j.row.holds (tableWord b0 b1 b2 b3 b4 b5) = true ↔ j.row = i.row)

/-- Sanity: bytes that 41_vgetexpps.md R90 to R99 spell out, one per form, decode to the instruction they stand for. -/
def Obligations.SpelledEncodingsDecode : Prop :=
  decode false [0x62, 0xF2, 0x7D, 0x08, 0x42, 0xCA] = .ok (.vgetexpps128Reg 1 2 0 false) ∧
  decode false [0x62, 0xF2, 0x7D, 0x09, 0x42, 0x18] = .ok (.vgetexpps128Mem 3 (.base 0 .none) 1 false) ∧
  decode false [0x62, 0xF2, 0x7D, 0x19, 0x42, 0x0B] = .ok (.vgetexpps128Bcst 1 (.base 3 .none) 1 false) ∧
  decode false [0x62, 0x32, 0x7D, 0x28, 0x42, 0xC9] = .ok (.vgetexpps256Reg 9 17 0 false) ∧
  decode false [0x62, 0xF2, 0x7D, 0xAA, 0x42, 0x58, 0x02] = .ok (.vgetexpps256Mem 3 (.base 0 (.disp8 2)) 2 true) ∧
  decode false [0x62, 0xF2, 0x7D, 0x38, 0x42, 0x52, 0x01] = .ok (.vgetexpps256Bcst 2 (.base 2 (.disp8 1)) 0 false) ∧
  decode false [0x62, 0x02, 0x7D, 0xCF, 0x42, 0xF5] = .ok (.vgetexpps512Reg 30 29 7 true) ∧
  decode false [0x62, 0x92, 0x7D, 0x48, 0x42, 0x4C, 0xEC, 0x04] =
    .ok (.vgetexpps512Mem 1 (.sib 12 (.scaled 13 3) (.disp8 4)) 0 false) ∧
  decode false [0x62, 0xF2, 0x7D, 0x58, 0x42, 0x72, 0x7F] = .ok (.vgetexpps512Bcst 6 (.base 2 (.disp8 0x7F)) 0 false) ∧
  decode false [0x62, 0xF2, 0x7D, 0x58, 0x42, 0xF5] = .ok (.vgetexpps512RegSae 6 5 0 false)

/-! ### The step: which instruction runs, and when fetch and decoding stop it -/

/-- 60_exceptions.md R117, 30_encoding.md R62: in 64-bit mode a step is the meaning of the instruction that the bytes at `rip` decode to. The
meaning itself moves `rip` past the instruction; the step adds nothing. -/
def Obligations.StepRunsDecoded : Prop :=
  ∀ (s : State) (i : Instr), s.mode = .bits64 → s.fetchDecode = .ok i → step s = exec i s

/-- 30_encoding.md R62, 10_state.md R21: in 64-bit mode, if memory holds the encoding of a well-formed instruction from `rip` on, the step is the
meaning of that instruction, whatever stands in the rest of memory. -/
def Obligations.StepRunsTheBytesAtRip : Prop :=
  ∀ (s : State) (i : Instr), s.mode = .bits64 → i.wellFormed = true → s.rip.toNat + i.length ≤ 2 ^ 64 →
    (∀ n < i.length, s.mem.read (s.rip.toNat + n) = (encode i)[n]?) → step s = exec i s

/-- 30_encoding.md R57: "Any other value: `raise #UD`, for every form, register or memory, masked or not." Bytes that have the fixed fields of R46 but for
vvvv, wholly admitted, whose P1[6:3] differs from 1111: the step raises #UD, whatever every other field is. -/
def Obligations.ReservedVvvvRaisesUD : Prop :=
  ∀ (s : State) (p0 p1 p2 m : Byte) (rest : List Byte), s.mode = .bits64 →
    s.codeBytes = 0x62 :: p0 :: p1 :: p2 :: 0x42 :: m :: rest →
    p0.extractLsb' 0 4 = 0b0010#4 → p1.getLsbD 7 = false → p1.getLsbD 2 = true → p1.extractLsb' 0 2 = 0b01#2 →
    tailBytes m (rest.headD 0) ≤ rest.length →
    p1.extractLsb' 3 4 ≠ 0b1111#4 →
    step s = .fault (.ud s.rip)

/-- 30_encoding.md R58, 60_exceptions.md R102 (decision D18, general knowledge): with vvvv = 1111, `V̄'` = 0, or z = 1 with aaa = 000, or L'L = 11 outside
mod = 11 with b = 1 raises #UD. -/
def Obligations.OtherReservedSettingsRaiseUD : Prop :=
  ∀ (s : State) (p0 p2 m : Byte) (rest : List Byte), s.mode = .bits64 →
    s.codeBytes = 0x62 :: p0 :: 0x7D :: p2 :: 0x42 :: m :: rest →
    p0.extractLsb' 0 4 = 0b0010#4 → tailBytes m (rest.headD 0) ≤ rest.length →
    (p2.getLsbD 3 = false ∨ (p2.getLsbD 7 = true ∧ p2.extractLsb' 0 3 = 0#3) ∨
      (p2.extractLsb' 5 2 = 3#2 ∧ ¬ (bits76 m = 3#2 ∧ p2.getLsbD 4 = true))) →
    step s = .fault (.ud s.rip)

/-- 30_encoding.md R54, R62 (decision D19): mod = 11 and b = 1 with L'L other than 10, the other reserved fields in order: refused when
SAE_IGNORES_LL is false, and the 512-bit `{sae}` form when it is true. -/
def Obligations.SaeWithOtherLL : Prop :=
  ∀ (s : State) (p0 p2 m : Byte) (rest : List Byte), s.mode = .bits64 →
    s.codeBytes = 0x62 :: p0 :: 0x7D :: p2 :: 0x42 :: m :: rest →
    p0.extractLsb' 0 4 = 0b0010#4 → bits76 m = 3#2 → p2.getLsbD 4 = true → p2.extractLsb' 5 2 ≠ 2#2 →
    p2.getLsbD 3 = true → (p2.getLsbD 7 = true → p2.extractLsb' 0 3 ≠ 0#3) →
    (s.cfg.saeIgnoresLL = false → step s = .refused .saeWithOtherLL) ∧
    (s.cfg.saeIgnoresLL = true →
      step s = exec (.vgetexpps512RegSae
        (vregNum (p0.getLsbD 4) (p0.getLsbD 7) (bits53 m)) (vregNum (p0.getLsbD 6) (p0.getLsbD 5) (bits20 m))
        (p2.extractLsb' 0 3) (p2.getLsbD 7)) s)

/-- 30_encoding.md R58, R59, 60_exceptions.md R111 (decisions D1, D21): bytes whose byte 0 is not 0x62, or whose fixed fields do not match, are
refused as NotVGETEXPPS, even when vvvv is reserved too. -/
def Obligations.OtherBytesRefused : Prop :=
  (∀ (s : State) (b0 : Byte) (rest : List Byte), s.mode = .bits64 → s.codeBytes = b0 :: rest → b0 ≠ 0x62 →
    step s = .refused .notVgetexpps) ∧
  (∀ (s : State) (p0 p1 p2 op m : Byte) (rest : List Byte), s.mode = .bits64 →
    s.codeBytes = 0x62 :: p0 :: p1 :: p2 :: op :: m :: rest →
    (p0.extractLsb' 0 4 ≠ 0b0010#4 ∨ p1.getLsbD 7 = true ∨ p1.getLsbD 2 = false ∨ p1.extractLsb' 0 2 ≠ 0b01#2 ∨ op ≠ 0x42) →
    step s = .refused .notVgetexpps)

/-- 20_memory.md R37, 60_exceptions.md R112 step 1 (decision D10): `rip` not admitted, or a first byte 0x62 with a byte among the next five not
admitted, or an instruction whose SIB or displacement bytes are not all admitted, ends in MemFault at `rip`; the byte count is the length of R60 wherever
the bytes admitted fix it (for mod = 01 and 10 the ModRM byte does), and else the bytes wanted so far, 1, 6, or 7 for mod = 00 with a SIB byte not admitted,
which is the model's choice (notes/assumptions/6.md). -/
def Obligations.FetchOutsideMemoryFaults : Prop :=
  (∀ s : State, s.mode = .bits64 → s.mem.read s.rip.toNat = none → step s = .fault (.memFault s.rip s.rip 1)) ∧
  (∀ (s : State) (n : Nat), s.mode = .bits64 → s.mem.read s.rip.toNat = some 0x62 → n < 6 →
    s.mem.read (s.rip.toNat + n) = none → step s = .fault (.memFault s.rip s.rip 6)) ∧
  (∀ (s : State) (p0 p1 p2 m : Byte) (rest : List Byte), s.mode = .bits64 →
    s.codeBytes = 0x62 :: p0 :: p1 :: p2 :: 0x42 :: m :: rest →
    p0.extractLsb' 0 4 = 0b0010#4 → p1.getLsbD 7 = false → p1.getLsbD 2 = true → p1.extractLsb' 0 2 = 0b01#2 →
    rest.length < tailBytes m (rest.headD 0) →
    step s = .fault (.memFault s.rip s.rip (6 + tailBytes m (rest.headD 0))))

/-- 10_state.md R21, 20_memory.md R37 (decision D32; the reading of R21's "refused" is notes/assumptions/7.md): an instruction whose bytes would cross the
top of the address space faults, whatever memory holds at address 0: one whose first six bytes cross it, and one of 7 to 11 bytes whose SIB or displacement
bytes cross it. (For mod = 00 with the SIB byte itself across the top, the length is not known and 7 bytes are wanted: notes/assumptions/6.md.) -/
def Obligations.CodeNeverWraps : Prop :=
  (∀ s : State, s.mode = .bits64 → s.mem.read s.rip.toNat = some 0x62 → 2 ^ 64 < s.rip.toNat + 6 →
    step s = .fault (.memFault s.rip s.rip 6)) ∧
  (∀ (s : State) (p0 p1 p2 m : Byte) (rest : List Byte), s.mode = .bits64 →
    s.codeBytes = 0x62 :: p0 :: p1 :: p2 :: 0x42 :: m :: rest →
    p0.extractLsb' 0 4 = 0b0010#4 → p1.getLsbD 7 = false → p1.getLsbD 2 = true → p1.extractLsb' 0 2 = 0b01#2 →
    2 ^ 64 < s.rip.toNat + 6 + tailBytes m (rest.headD 0) →
    step s = .fault (.memFault s.rip s.rip (6 + tailBytes m (rest.headD 0))))

/-- 00_scope.md R3 (decision D33): in every mode other than 64-bit mode the step refuses. -/
def Obligations.OtherModesRefused : Prop :=
  ∀ s : State, s.mode ≠ .bits64 → step s = .refused .otherMode

/-! ### The element function -/

/-- 40_getexp_element.md R67, as R73 narrows it: for a finite non-zero element, a denormal under DAZ left out, which counts as zero (R73), the result is a finite single-precision
number whose value is an integer n, n = floor(log2(|x|)), that is 2^n <= |x| < 2^(n+1), here scaled by 2^149; the sign of x does not matter. -/
def Obligations.GetExpIsFloorLog2 : Prop :=
  ∀ (x : Elem) (daz : Bool), (isNormal x = true ∨ (isDenormal x = true ∧ daz = false)) →
    isFinite (getExpSP x daz).res = true ∧
    getExpSP (x ^^^ 0x80000000) daz = getExpSP x daz ∧
    ∃ n : Int, -149 ≤ n ∧ n ≤ 127 ∧ scaledValue (getExpSP x daz).res = n * 2 ^ 149 ∧
      2 ^ (n + 149).toNat ≤ scaledAbs x ∧ scaledAbs x < 2 ^ (n + 150).toNat

/-- 40_getexp_element.md R71 (QNAN_FN is decision D22, notes/assumptions/16.md): a NaN gives its quieted form, which is a QNaN with the same sign and
the other fraction bits kept, a QNaN is returned unchanged, ie says whether it was signalling, de is 0, whatever DAZ is. -/
def Obligations.NaNSource : Prop :=
  ∀ (x : Elem) (daz : Bool), (isSNaN x = true ∨ isQNaN x = true) →
    isQNaN (getExpSP x daz).res = true ∧
    (∀ b, b ≠ 22 → (getExpSP x daz).res.getLsbD b = x.getLsbD b) ∧
    (isQNaN x = true → (getExpSP x daz).res = x) ∧
    (getExpSP x daz).ie = isSNaN x ∧ (getExpSP x daz).de = false

/-- 40_getexp_element.md R72: "Both +INF and -INF give +INF = 0x7F800000; no flag." -/
def Obligations.InfiniteSource : Prop :=
  ∀ (x : Elem) (daz : Bool), isInf x = true → getExpSP x daz = { res := 0x7F800000, ie := false, de := false }

/-- 40_getexp_element.md R73: "+0 and -0 give -INF = 0xFF800000.", and so does a denormal with DAZ = 1; no flag is set. -/
def Obligations.ZeroSource : Prop :=
  ∀ (x : Elem) (daz : Bool), (isZero x = true ∨ (isDenormal x = true ∧ daz = true)) →
    getExpSP x daz = { res := 0xFF800000, ie := false, de := false }

/-- 40_getexp_element.md R74: a denormal with DAZ = 0 has p, the index of the most significant 1 bit of its fraction, and floor(log2(|x|)) = p - 149, in
-149 .. -127, here 2^p <= |x| < 2^(p+1) scaled by 2^149; the result is p - 149 converted to single precision (R78), always negative; de = 1, ie = 0. -/
def Obligations.DenormalSource : Prop :=
  ∀ x : Elem, isDenormal x = true →
    ∃ p : Nat, p ≤ 22 ∧ (fraction x).getLsbD p = true ∧ (∀ b, p < b → (fraction x).getLsbD b = false) ∧
      2 ^ p ≤ scaledAbs x ∧ scaledAbs x < 2 ^ (p + 1) ∧
      getExpSP x false = { res := cvtInt32ToSP ((p : Int) - 149), ie := false, de := true } ∧
      (getExpSP x false).res.getLsbD 31 = true

/-- 40_getexp_element.md R75, R77: a normal source gives e - 127 converted to single precision; "The fraction plays no part. No flag."; and the page's four
statements (sign cleared, arithmetic shift right by 23, minus 127 in two's complement, converted) compute the same. -/
def Obligations.NormalSource : Prop :=
  ∀ (x : Elem) (daz : Bool), isNormal x = true →
    getExpSP x daz = { res := cvtInt32ToSP (((biasedExp x).toNat : Int) - 127), ie := false, de := false } ∧
    sar32 (x &&& 0x7FFFFFFF) 23 = (biasedExp x).setWidth 32 ∧
    getExpSP x daz = { res := normalPath x, ie := false, de := false }

/-- 40_getexp_element.md R76: for a fraction other than 0 whose top 1 bit is p, the helper's loop leaves `Dst.exp` = p - 22, an integer in
-22 .. 0, and that minus 127 is the unbiased exponent p - 149. -/
def Obligations.NormalizeLoop : Prop :=
  ∀ (f : BitVec 23) (p : Nat), f.getLsbD p = true → (∀ b, p < b → f.getLsbD b = false) →
    normalizeExpTiny f = (p : Int) - 22 ∧ -22 ≤ normalizeExpTiny f ∧ normalizeExpTiny f ≤ 0 ∧
    normalizeExpTiny f - 127 = (p : Int) - 149

/-- 40_getexp_element.md R78 (that 0 converts to +0.0 is decision D23): on the integers that occur, -149 .. 127, the conversion is exact: the result
is finite, its value is the integer, and 0 gives 0x00000000. -/
def Obligations.ConversionExact : Prop :=
  ∀ n : Int, -149 ≤ n → n ≤ 127 →
    isFinite (cvtInt32ToSP n) = true ∧ scaledValue (cvtInt32ToSP n) = n * 2 ^ 149 ∧ cvtInt32ToSP 0 = 0x00000000

/-- 40_getexp_element.md R79: ie = 1 exactly when the element is an SNaN, de = 1 exactly when it is a denormal and daz = 0; never both. -/
def Obligations.FlagRequests : Prop :=
  ∀ (x : Elem) (daz : Bool),
    ((getExpSP x daz).ie = true ↔ isSNaN x = true) ∧
    ((getExpSP x daz).de = true ↔ isDenormal x = true ∧ daz = false) ∧
    ¬ ((getExpSP x daz).ie = true ∧ (getExpSP x daz).de = true)

/-- 40_getexp_element.md R69: every element is of exactly one of the six classes. -/
def Obligations.ClassesPartition : Prop :=
  ∀ x : Elem, (isZero x).toNat + (isDenormal x).toNat + (isNormal x).toNat + (isInf x).toNat + (isSNaN x).toNat +
    (isQNaN x).toNat = 1

/-- 90_conflicts.md C2, C3, C6: the printed pseudocode read to the letter agrees with R70 everywhere but on two bands: a denormal with DAZ = 0 and
fraction bit 22 set gives -383.0 = 0xC3BF8000, and -INF gives 128.0 = 0x43000000. -/
def Obligations.PrintedPseudocodeDiffersInTwoBands : Prop :=
  ∀ (x : Elem) (daz : Bool),
    ((isDenormal x = true ∧ daz = false ∧ (fraction x).getLsbD 22 = true) → (printedConvertExp x daz).res = 0xC3BF8000) ∧
    (x = 0xFF800000 → (printedConvertExp x daz).res = 0x43000000) ∧
    (¬ (isDenormal x = true ∧ daz = false ∧ (fraction x).getLsbD 22 = true) → x ≠ 0xFF800000 →
      printedConvertExp x daz = getExpSP x daz)

/-! ### The ten forms: when they complete and what they do -/

/-- 41_vgetexpps.md R83 to R90, R93, R96: the register forms vgetexpps128Reg, vgetexpps256Reg, vgetexpps512Reg complete whenever they are enabled and no
requested exception is unmasked: each element below VL is GetExpSP of the source register's element, or merged, or zero; the bits above VL are zero;
IE and DE are set as requested and no other MXCSR bit changes; `rip` moves by 6; everything else is as it was. (#XM and the masks: decision D24.) -/
def Obligations.RegisterFormsComplete : Prop :=
  ∀ (vl : VecLen) (d r : VReg) (aaa : KReg) (z : Bool) (s : State),
    Enabled (regForm vl d r aaa z) s → ¬ UnmaskedRequest (regForm vl d r aaa z) s →
    ∃ t, exec (regForm vl d r aaa z) s = .next t ∧ ResultOf (regForm vl d r aaa z) s t ∧ FlagsOf (regForm vl d r aaa z) s t ∧
      FrameOf d s t ∧ t.rip = s.rip + 6

/-- 41_vgetexpps.md R83 to R89, R91, R94, R97, 20_memory.md R31, R33: the full-vector memory forms vgetexpps128Mem, vgetexpps256Mem, vgetexpps512Mem
complete whenever they are enabled, all VL/8 bytes at EA are admitted (no alignment is needed) and no requested exception is unmasked, with element j
read at EA + 4j. (Admission: decision D10.) -/
def Obligations.FullMemoryFormsComplete : Prop :=
  ∀ (vl : VecLen) (d : VReg) (m : MemOp) (aaa : KReg) (z : Bool) (s : State),
    Enabled (fullForm vl d m aaa z) s → OperandAdmitted (fullForm vl d m aaa z) s →
    ¬ UnmaskedRequest (fullForm vl d m aaa z) s →
    ∃ t, exec (fullForm vl d m aaa z) s = .next t ∧ ResultOf (fullForm vl d m aaa z) s t ∧
      FlagsOf (fullForm vl d m aaa z) s t ∧ FrameOf d s t

/-- 41_vgetexpps.md R83 to R89, R92, R95, R98, 20_memory.md R32: the broadcast forms vgetexpps128Bcst, vgetexpps256Bcst, vgetexpps512Bcst complete whenever
they are enabled, the 4 bytes at EA are admitted and no requested exception is unmasked; every element uses those 4 bytes. -/
def Obligations.BroadcastFormsComplete : Prop :=
  ∀ (vl : VecLen) (d : VReg) (m : MemOp) (aaa : KReg) (z : Bool) (s : State),
    Enabled (bcstForm vl d m aaa z) s → OperandAdmitted (bcstForm vl d m aaa z) s →
    ¬ UnmaskedRequest (bcstForm vl d m aaa z) s →
    ∃ t, exec (bcstForm vl d m aaa z) s = .next t ∧ ResultOf (bcstForm vl d m aaa z) s t ∧
      FlagsOf (bcstForm vl d m aaa z) s t ∧ FrameOf d s t

/-- 41_vgetexpps.md R99, 60_exceptions.md R108 (the effect of `{sae}` is decision D20): vgetexpps512RegSae completes whenever it is enabled, whatever the
exception masks are; the elements are as in R83, and MXCSR is left whole as it was. -/
def Obligations.SaeFormCompletes : Prop :=
  ∀ (d r : VReg) (aaa : KReg) (z : Bool) (s : State), Enabled (.vgetexpps512RegSae d r aaa z) s →
    ∃ t, exec (.vgetexpps512RegSae d r aaa z) s = .next t ∧ ResultOf (.vgetexpps512RegSae d r aaa z) s t ∧
      t.mxcsr = s.mxcsr ∧ FrameOf d s t ∧ t.rip = s.rip + 6

/-- 60_exceptions.md R112 (decision D27): the order of outcomes of a meaning, first match wins: a launch without OS_ENABLED is refused
(notes/assumptions/9.md), a missing feature is #UD, an operand not admitted is MemFault(EA, n), an unmasked request without `{sae}` is #XM, and anything
else completes. -/
def Obligations.OutcomeOrder : Prop :=
  ∀ (i : Instr) (s : State),
    (s.osEnabled = false → exec i s = .refused .osNotEnabled) ∧
    (s.osEnabled = true → ¬ Enabled i s → exec i s = .fault (.ud s.rip)) ∧
    (∀ ea n, Enabled i s → operandRange i s = some (ea, n) → ¬ Admit s.mem ea n →
      exec i s = .fault (.memFault s.rip ea n)) ∧
    (Enabled i s → OperandAdmitted i s → i.isSae = false → UnmaskedRequest i s → exec i s = .fault (.xm s.rip)) ∧
    (Enabled i s → OperandAdmitted i s → (i.isSae = true ∨ ¬ UnmaskedRequest i s) → ∃ t, exec i s = .next t)

/-- 60_exceptions.md R103 (consequence of a missing flag: general knowledge G14): without AVX512F every form raises #UD; without AVX512VL the 128-bit and
256-bit forms do, and the 512-bit forms do not need it. -/
def Obligations.MissingFeatureRaisesUD : Prop :=
  ∀ (i : Instr) (s : State), s.osEnabled = true →
    (s.cfg.hasAVX512F = false → exec i s = .fault (.ud s.rip)) ∧
    (s.cfg.hasAVX512VL = false → i.vecLen ≠ .v512 → exec i s = .fault (.ud s.rip)) ∧
    (s.cfg.hasAVX512F = true → i.vecLen = .v512 → exec i s ≠ .fault (.ud s.rip))

/-- 20_memory.md R37, R38 (decisions D10, D11): the mask does not narrow the read. Whatever the opmask registers hold, all elements selected, some or none, a
memory operand of which any byte is not admitted faults with the address and the size of the whole operand, be that byte of a masked-off element or not;
and one that is admitted whole never faults for memory. -/
def Obligations.MemFaultWhateverTheMask : Prop :=
  ∀ (i : Instr) (s : State) (ea : Addr) (n : Nat) (k : Vector (BitVec 64) 8), Enabled i s → operandRange i s = some (ea, n) →
    (∀ b < n, s.mem.read (ea.toNat + b) = none → exec i { s with k := k } = .fault (.memFault s.rip ea n)) ∧
    (¬ Admit s.mem ea n → exec i { s with k := k } = .fault (.memFault s.rip ea n)) ∧
    (Admit s.mem ea n → ∀ rip a l, exec i { s with k := k } ≠ .fault (.memFault rip a l))

/-- 60_exceptions.md R104, R105, R106, R107: with IM = 1 and DM = 1 no form raises #XM; a form that requests nothing never does, whatever the masks. -/
def Obligations.MaskedNeverRaisesXM : Prop :=
  ∀ (i : Instr) (s : State), (MaskedExceptions s ∨ (¬ RequestsIE i s ∧ ¬ RequestsDE i s)) →
    ∀ rip, exec i s ≠ .fault (.xm rip)

/-- 41_vgetexpps.md R86: "DEST[MAXVL-1:VL] ← 0": after every form that completes, every bit of the destination register from VL up is zero, under
merging-masking too, and even when every mask bit is 0. -/
def Obligations.ZeroAboveVL : Prop :=
  ∀ (i : Instr) (s t : State), exec i s = .next t →
    ∀ b, 32 * kl i.vecLen ≤ b → (t.readZmm i.dest).getLsbD b = false

/-- 41_vgetexpps.md R85: in every form that completes, an element that is not computed keeps its old value under merging-masking and becomes 0 under
zeroing-masking; and it sets no flag, whatever the source holds there: a flag that was clear is set only by an element that is computed, and where no
element is computed MXCSR is as it was. -/
def Obligations.MaskedElements : Prop :=
  ∀ (i : Instr) (s t : State), exec i s = .next t →
    (∀ j < kl i.vecLen, ¬ Computed i s j →
      (t.readZmm i.dest).extractLsb' (32 * j) 32 =
        if i.zeroing then 0 else (s.readZmm i.dest).extractLsb' (32 * j) 32) ∧
    (mxIE t.mxcsr = true → mxIE s.mxcsr = true ∨ ∃ j < kl i.vecLen, Computed i s j ∧ isSNaN (sourceElem i s j) = true) ∧
    (mxDE t.mxcsr = true → mxDE s.mxcsr = true ∨ ∃ j < kl i.vecLen, Computed i s j ∧ isDenormal (sourceElem i s j) = true) ∧
    ((∀ j < kl i.vecLen, ¬ Computed i s j) → t.mxcsr = s.mxcsr)

/-- 41_vgetexpps.md R87: a register form may name one register as source and destination: the new value is computed from the old one, element by
element. -/
def Obligations.SourceIsDestination : Prop :=
  ∀ (vl : VecLen) (d : VReg) (aaa : KReg) (z : Bool) (s t : State), exec (regForm vl d d aaa z) s = .next t →
    ∀ j < kl vl, Computed (regForm vl d d aaa z) s j → (t.readZmm d).extractLsb' (32 * j) 32 =
      (getExpSP ((s.readZmm d).extractLsb' (32 * j) 32) (mxDAZ s.mxcsr)).res

/-- 10_state.md R17, R19: the flags are sticky: every form that completes leaves IE and DE set where they were set, sets them only on a request (never under
`{sae}`, decision D20), and changes no other bit of MXCSR. -/
def Obligations.FlagsSticky : Prop :=
  ∀ (i : Instr) (s t : State), exec i s = .next t →
    (mxIE t.mxcsr = true ↔ mxIE s.mxcsr = true ∨ (i.isSae = false ∧ RequestsIE i s)) ∧
    (mxDE t.mxcsr = true ↔ mxDE s.mxcsr = true ∨ (i.isSae = false ∧ RequestsDE i s)) ∧
    ∀ b, 2 ≤ b → t.mxcsr.getLsbD b = s.mxcsr.getLsbD b

/-- The frame of all ten forms (10_state.md R23): every vector register but the destination, the opmask registers, the general registers, every byte of
memory, the mode, OS_ENABLED and the parameters are unchanged; `rip` moves by the length (R21). -/
def Obligations.FrameOfEveryForm : Prop :=
  ∀ (i : Instr) (s t : State), exec i s = .next t → FrameOf i.dest s t ∧ t.rip = s.rip + BitVec.ofNat 64 i.length

/-- 41_vgetexpps.md R99: where the 512-bit register form completes, the `{sae}` form completes with the same registers and `rip`, and MXCSR as it was before
(decision D20). -/
def Obligations.SaeSameResults : Prop :=
  ∀ (d r : VReg) (aaa : KReg) (z : Bool) (s t : State), exec (.vgetexpps512Reg d r aaa z) s = .next t →
    exec (.vgetexpps512RegSae d r aaa z) s = .next { t with mxcsr := s.mxcsr }

/-! ### What an instruction cannot depend on -/

/-- 41_vgetexpps.md R85, 10_state.md R15: in a register form whose source is not its destination, source elements that are not computed, and source bits
above VL, have no influence: changing them in the source register changes the outcome in that register only. -/
def Obligations.UncomputedSourceIrrelevant : Prop :=
  ∀ (i : Instr) (vl : VecLen) (d r : VReg) (aaa : KReg) (z : Bool) (s : State) (v : ZmmVal),
    (i = regForm vl d r aaa z ∨ i = .vgetexpps512RegSae d r aaa z) → r ≠ d →
    (∀ j < kl i.vecLen, Computed i s j → v.extractLsb' (32 * j) 32 = (s.readZmm r).extractLsb' (32 * j) 32) →
    exec i (s.writeZmm r v) =
      match exec i s with
      | .next t => .next (t.writeZmm r v)
      | .fault f => .fault f
      | .refused x => .refused x

/-- 10_state.md R16 (D5): only bits KL-1..0 of the selected opmask register are looked at, and nothing depends on K_WIDTH. -/
def Obligations.OnlyLowMaskBitsMatter : Prop :=
  ∀ (i : Instr) (s : State) (k : Vector (BitVec 64) 8) (w : KWidth),
    (i.maskReg ≠ 0 → ∀ j < kl i.vecLen, (k[i.maskReg.toNat]'i.maskReg.isLt).getLsbD j = (s.k[i.maskReg.toNat]'i.maskReg.isLt).getLsbD j) →
    exec i { s with k := k, cfg := { s.cfg with kWidth := w } } =
      match exec i s with
      | .next t => .next { t with k := k, cfg := { s.cfg with kWidth := w } }
      | .fault f => .fault f
      | .refused x => .refused x

/-! ### Addresses and memory -/

/-- 30_encoding.md R49, R50, R51, R53 (general knowledge G3, decision D17): the address of a memory operand, every row of R49 and R50, modulo 2^64: base with
no displacement, with disp8 in units of `n`, with disp32; RIP-relative, from the byte after the instruction; with SIB the same base rows with or without
an index; without a base, disp32 with or without an index. -/
def Obligations.EffectiveAddresses : Prop :=
  ∀ (n len : Nat) (s : State) (r x : GReg) (scale : BitVec 2) (d8 : BitVec 8) (d : BitVec 32) (disp : Disp),
    effectiveAddress n len s (.base r .none) = s.readGpr r ∧
    effectiveAddress n len s (.base r (.disp8 d8)) = s.readGpr r + BitVec.ofInt 64 (n * d8.toInt) ∧
    effectiveAddress n len s (.base r (.disp32 d)) = s.readGpr r + BitVec.ofInt 64 d.toInt ∧
    effectiveAddress n len s (.ripRel d) = s.rip + BitVec.ofNat 64 len + BitVec.ofInt 64 d.toInt ∧
    effectiveAddress n len s (.sib r .none disp) = effectiveAddress n len s (.base r disp) ∧
    effectiveAddress n len s (.sib r (.scaled x scale) disp) =
      effectiveAddress n len s (.base r disp) + s.readGpr x * BitVec.ofNat 64 (2 ^ scale.toNat) ∧
    effectiveAddress n len s (.sibNoBase .none d) = BitVec.ofInt 64 d.toInt ∧
    effectiveAddress n len s (.sibNoBase (.scaled x scale) d) =
      s.readGpr x * BitVec.ofNat 64 (2 ^ scale.toNat) + BitVec.ofInt 64 d.toInt

/-- 30_encoding.md R53 (decision D17): a one-byte displacement d stands for N * d with N = 16, 32, 64 in the full-vector forms and 4 in the broadcast forms:
the bytes read are those of the same form with base register plus N * d. -/
def Obligations.Disp8CountsInUnitsOfN : Prop :=
  ∀ (vl : VecLen) (d : VReg) (r : GReg) (d8 : BitVec 8) (aaa : KReg) (z : Bool) (s : State),
    operandRange (fullForm vl d (.base r (.disp8 d8)) aaa z) s =
      some (s.readGpr r + BitVec.ofInt 64 (4 * kl vl * d8.toInt), 4 * kl vl) ∧
    operandRange (bcstForm vl d (.base r (.disp8 d8)) aaa z) s = some (s.readGpr r + BitVec.ofInt 64 (4 * d8.toInt), 4)

/-- 30_encoding.md R51 (general knowledge G3): RIP-relative: EA = rip + 10 + disp32 in all six memory forms. -/
def Obligations.RipRelative : Prop :=
  ∀ (vl : VecLen) (d : VReg) (d32 : BitVec 32) (aaa : KReg) (z : Bool) (s : State),
    operandRange (fullForm vl d (.ripRel d32) aaa z) s = some (s.rip + 10 + BitVec.ofInt 64 d32.toInt, 4 * kl vl) ∧
    operandRange (bcstForm vl d (.ripRel d32) aaa z) s = some (s.rip + 10 + BitVec.ofInt 64 d32.toInt, 4)

/-- 20_memory.md R30 (decision D7): little-endian: element j of an admitted range is the four bytes at addr + 4j, lowest address least significant. -/
def Obligations.LittleEndianElements : Prop :=
  ∀ (m : Memory) (a : Addr) (n j : Nat) (bs : List Byte), m.readRange a n = some bs → n ≤ 64 → 4 * j + 4 ≤ n →
    lane (packBytes bs) j = memElem m (a.toNat + 4 * j)

/-- 20_memory.md R30: "reading the 4 bytes at `addr + 4j` with a broadcast form gives element j of what a full-vector form reads": with the operand of a
full-vector form admitted at EA, a source read at EA + 4j as broadcast gives in every element what the full-vector source has in element j. -/
def Obligations.BroadcastAgreesWithFullVector : Prop :=
  ∀ (vl : VecLen) (s : State) (ea : Addr) (j n : Nat) (S : ZmmVal), j < kl vl → n < kl vl →
    sourceValue vl s (.mem ea false) = .ok S →
    ∃ B, sourceValue vl s (.mem (ea + BitVec.ofNat 64 (4 * j)) true) = .ok B ∧ lane B n = lane S j

/-- Two memories in the canonical form that read alike at every address are the same data (the model's own form, notes/assumptions/4.md). -/
def Obligations.CanonicalMemoryExtensional : Prop :=
  ∀ m₁ m₂ : Memory, m₁.wf = true → m₂.wf = true → (∀ a, m₁.read a = m₂.read a) → m₁ = m₂

/-- 10_state.md R13, R14, R15 (general knowledge G12): xmm and ymm are the low 128 and 256 bits of the same register's one value, and a write of a vector
register is a write of all 512 bits of it and of no other. -/
def Obligations.XmmYmmAreViews : Prop :=
  ∀ (s : State) (i r : VReg) (v : ZmmVal),
    (s.readYmm i).setWidth 128 = s.readXmm i ∧ (s.readZmm i).setWidth 256 = s.readYmm i ∧
    (s.writeZmm i v).readZmm i = v ∧ (s.writeZmm i v).readYmm i = v.setWidth 256 ∧
    (s.writeZmm i v).readXmm i = v.setWidth 128 ∧
    (r ≠ i → (s.writeZmm i v).readZmm r = s.readZmm r)

/-! ### The whole machine -/

/-- 20_memory.md R35: "VGETEXPPS never stores." No step of the machine changes memory. -/
def Obligations.StepNeverStores : Prop :=
  ∀ s t : State, step s = .next t → t.mem = s.mem ∧ ∀ a, t.mem.read a = s.mem.read a

/-- 10_state.md R21, R23: every step that completes ran an instruction of 6 to 11 bytes that lies below the top of the address space, moved `rip` by its
length modulo 2^64, wrote at most one vector register and IE and DE, and left everything else. -/
def Obligations.StepFrame : Prop :=
  ∀ s t : State, step s = .next t →
    ∃ i : Instr, s.fetchDecode = .ok i ∧ i.wellFormed = true ∧ 6 ≤ i.length ∧ i.length ≤ 11 ∧ s.rip.toNat + i.length ≤ 2 ^ 64 ∧
      t.rip = s.rip + BitVec.ofNat 64 i.length ∧ FrameOf i.dest s t ∧ (∀ b, 2 ≤ b → t.mxcsr.getLsbD b = s.mxcsr.getLsbD b) ∧
      (mxIE s.mxcsr = true → mxIE t.mxcsr = true) ∧ (mxDE s.mxcsr = true → mxDE t.mxcsr = true)

/-- 60_exceptions.md R110 (decision D26): a fault carries the `rip` of the instruction that raised. -/
def Obligations.FaultCarriesRip : Prop :=
  ∀ (s : State) (f : Fault), step s = .fault f →
    f = .ud s.rip ∨ f = .xm s.rip ∨ ∃ a n, f = .memFault s.rip a n

/-- The invariant of the machine (memory in canonical form; MXCSR[31:16] zero, 10_state.md R18; opmask registers of K_WIDTH bits, R16; the launch premises,
R27): every step from every state that has it keeps it. -/
def Obligations.StepKeepsInv : Prop :=
  ∀ s t : State, Inv s → step s = .next t → Inv t

/-- The invariant holds at State.reset (values of notes/assumptions/1.md to 4.md, 8.md, 9.md). -/
def Obligations.ResetInv : Prop := Inv State.reset

/-- What State.reset is. The spec gives no reset value (10_state.md R26): the values are the model's, notes/assumptions/1.md to 4.md, 8.md, 9.md: MXCSR 0x1F80 with
IM and DM set and IE, DE, DAZ clear, registers zero, 64-bit mode with OS_ENABLED, nothing admitted, so that the first step from it faults. -/
def Obligations.ResetValues : Prop :=
  State.reset.mxcsr = 0x1F80 ∧ MaskedExceptions State.reset ∧ mxIE State.reset.mxcsr = false ∧ mxDE State.reset.mxcsr = false ∧
  mxDAZ State.reset.mxcsr = false ∧ (∀ r, State.reset.readZmm r = 0) ∧ (∀ a, State.reset.readK a = 0) ∧
  (∀ r, State.reset.readGpr r = 0) ∧ State.reset.rip = 0 ∧ LaunchPremise State.reset ∧ (∀ a, State.reset.mem.read a = none) ∧
  step State.reset = .fault (.memFault 0 0 1)
end

