-- ==== Sys2Proof/Laws/Bits.lean ====
section
/-! SUPPORT. The bit fields of the encoding: each field of a byte the encoder builds is read back, and register numbers and
displacements are put together again. -/

namespace Sys2Proof

theorem bits76_packByte (hi : BitVec 2) (mid low : BitVec 3) : bits76 (packByte hi mid low) = hi := by
  revert hi mid low; decide

theorem bits53_packByte (hi : BitVec 2) (mid low : BitVec 3) : bits53 (packByte hi mid low) = mid := by
  revert hi mid low; decide

theorem bits20_packByte (hi : BitVec 2) (mid low : BitVec 3) : bits20 (packByte hi mid low) = low := by
  revert hi mid low; decide

/-- A vector register number is put together again from its inverted and its plain bits. -/
theorem vregNum_bits (d : VReg) : vregNum (!d.getLsbD 4) (!d.getLsbD 3) (d.extractLsb' 0 3) = d := by
  revert d; decide

/-- A general register number is put together again. -/
theorem gregNum_bits (r : GReg) : gregNum (!r.getLsbD 3) (r.extractLsb' 0 3) = r := by
  revert r; decide

/-- The fields of P0. -/
theorem p0Byte_fields (d : VReg) (xbar bbar : Bool) :
    (p0Byte d xbar bbar).extractLsb' 0 4 = 0b0010#4 ∧ (p0Byte d xbar bbar).getLsbD 6 = xbar ∧
    (p0Byte d xbar bbar).getLsbD 5 = bbar ∧ (p0Byte d xbar bbar).getLsbD 4 = !d.getLsbD 4 ∧
    (p0Byte d xbar bbar).getLsbD 7 = !d.getLsbD 3 := by
  revert d; cases xbar <;> cases bbar <;> decide

/-- The fields of P2. -/
theorem p2Byte_fields (z b : Bool) (ll : BitVec 2) (aaa : KReg) :
    (p2Byte z ll b aaa).getLsbD 3 = true ∧ (p2Byte z ll b aaa).getLsbD 7 = z ∧ (p2Byte z ll b aaa).getLsbD 4 = b ∧
    (p2Byte z ll b aaa).extractLsb' 5 2 = ll ∧ bits20 (p2Byte z ll b aaa) = aaa := by
  revert ll aaa; cases z <;> cases b <;> decide

/-- The destination number is read back from P0 and ModRM. -/
theorem destOf_encoded (d : VReg) (xbar bbar : Bool) (mod : BitVec 2) (rm : BitVec 3) :
    destOf (p0Byte d xbar bbar) (packByte mod (d.extractLsb' 0 3) rm) = d := by
  obtain ⟨_, _, _, h4, h7⟩ := p0Byte_fields d xbar bbar
  rw [destOf, h4, h7, bits53_packByte, vregNum_bits]

/-- A four-byte displacement is read back. -/
theorem disp32Of_bytes (d : BitVec 32) :
    disp32Of (d.extractLsb' 0 8) (d.extractLsb' 8 8) (d.extractLsb' 16 8) (d.extractLsb' 24 8) = d := by
  apply BitVec.eq_of_getLsbD_eq
  intro i h
  simp only [disp32Of, BitVec.getLsbD_append, BitVec.getLsbD_extractLsb']
  by_cases h1 : i < 8
  · simp [h1]
  · by_cases h2 : i - 8 < 8
    · simp [h1, h2, show 8 + (i - 8) = i by omega]
    · by_cases h3 : i - 8 - 8 < 8
      · simp [h1, h2, h3, show 16 + (i - 8 - 8) = i by omega]
      · simp [h1, h2, h3, show i - 8 - 8 - 8 < 8 by omega, show 24 + (i - 8 - 8 - 8) = i by omega]

theorem takeDisp32_bytes (need : Nat) (d : BitVec 32) (rest : List Byte) :
    takeDisp32 need (disp32Bytes d ++ rest) = .ok d := by
  change Except.ok (disp32Of _ _ _ _) = _
  rw [disp32Of_bytes]

theorem length_disp32Bytes (d : BitVec 32) : (disp32Bytes d).length = 4 := rfl

theorem length_dispBytes (d : Disp) : d.bytes.length = d.length := by cases d <;> rfl

/-- The bytes after ModRM are as many as the operand's length. -/
theorem length_encodeRM_mem (m : MemOp) : (encodeRM (.mem m)).tail.length = m.length := by
  cases m with
  | base r d => exact length_dispBytes d
  | ripRel d => rfl
  | sib r ix d =>
    change d.bytes.length + 1 = 1 + d.length
    rw [length_dispBytes, Nat.add_comm]
  | sibNoBase ix d => rfl

/-- An encoding is six bytes and the bytes after ModRM. -/
theorem length_encodeFields (f : Fields) : (encodeFields f).length = 6 + (encodeRM f.rm).tail.length := by
  simp only [encodeFields, List.length_cons]
  omega

end Sys2Proof
end

