-- ==== Sys2Proof/Laws/Memory.lean ====
section
/-! SUPPORT. Memory: every operation keeps the canonical form, a read after a write, loading, ranges of bytes. -/

namespace Sys2Proof.Machine

/-! ### The canonical form -/

theorem wfFrom_cons {lo k : Nat} {b : Byte} {rest : Memory} :
    Memory.wfFrom lo ((k, b) :: rest) = true ↔ lo ≤ k ∧ k < 2 ^ 64 ∧ Memory.wfFrom (k + 1) rest = true := by
  simp [Memory.wfFrom, and_assoc]

theorem wfFrom_write {a : Nat} (ha : a < 2 ^ 64) (v : Byte) :
    ∀ {m : Memory} {lo : Nat}, lo ≤ a → Memory.wfFrom lo m = true → Memory.wfFrom lo (m.write a v) = true
  | [], lo, hlo, _ => by rw [Memory.write, wfFrom_cons]; exact ⟨hlo, ha, rfl⟩
  | (k, b) :: rest, lo, hlo, h => by
    obtain ⟨h1, h2, h3⟩ := wfFrom_cons.1 h
    unfold Memory.write
    split
    · exact wfFrom_cons.2 ⟨hlo, ha, wfFrom_cons.2 ⟨by omega, h2, h3⟩⟩
    · split
      · rename_i heq; subst heq; exact wfFrom_cons.2 ⟨hlo, ha, h3⟩
      · exact wfFrom_cons.2 ⟨h1, h2, wfFrom_write ha v (by omega) h3⟩

/-- Writing a byte inside the address space keeps the canonical form. -/
theorem write_wf {m : Memory} {a : Nat} (v : Byte) (h : m.wf = true) (ha : a < 2 ^ 64) : (m.write a v).wf = true :=
  wfFrom_write ha v (Nat.zero_le a) h

/-- Loading bytes keeps the canonical form. -/
theorem load_wf : ∀ (bs : List Byte) {m : Memory} (a : Nat), m.wf = true → (m.load a bs).wf = true
  | [], _, _, h => h
  | b :: bs, m, a, h => by
    unfold Memory.load
    split
    · exact load_wf bs (a + 1) (write_wf b h ‹_›)
    · exact h

/-- No address is listed twice below the first one. -/
theorem read_eq_none_of_lt {a : Nat} : ∀ {m : Memory} {lo : Nat}, Memory.wfFrom lo m = true → a < lo → m.read a = none
  | [], _, _, _ => rfl
  | (k, b) :: rest, lo, h, hlt => by
    obtain ⟨h1, _, h3⟩ := wfFrom_cons.1 h
    have hk : k ≠ a := by omega
    simp only [Memory.read, hk, if_false]
    exact read_eq_none_of_lt h3 (by omega)

/-! ### A read after a write -/

theorem read_write_self (v : Byte) : ∀ (m : Memory) (a : Nat), (m.write a v).read a = some v
  | [], a => by simp [Memory.write, Memory.read]
  | (k, b) :: rest, a => by
    unfold Memory.write
    split
    · simp [Memory.read]
    · split
      · simp [Memory.read]
      · have : k ≠ a := by omega
        simp [Memory.read, this, read_write_self v rest a]

theorem read_write_ne (v : Byte) {c : Nat} : ∀ (m : Memory) (a : Nat), c ≠ a → (m.write a v).read c = m.read c
  | [], a, h => by simp [Memory.write, Memory.read, Ne.symm h]
  | (k, b) :: rest, a, h => by
    unfold Memory.write
    split
    · simp [Memory.read, Ne.symm h]
    · split
      · rename_i heq; subst heq; simp [Memory.read, Ne.symm h]
      · simp [Memory.read, read_write_ne v rest a h]

/-- Loaded bytes leave every address below the range as it was. -/
theorem read_load_below : ∀ (bs : List Byte) (m : Memory) {a c : Nat}, c < a → (m.load a bs).read c = m.read c
  | [], _, _, _, _ => rfl
  | b :: bs, m, a, c, h => by
    unfold Memory.load
    split
    · rw [read_load_below bs _ (by omega), read_write_ne b m a (by omega)]
    · rfl

/-- Loaded bytes are read back, where they lie inside the address space. -/
theorem read_load : ∀ (bs : List Byte) (m : Memory) {a n : Nat}, n < bs.length → a + n < 2 ^ 64 →
    (m.load a bs).read (a + n) = bs[n]?
  | b :: bs, m, a, n, hn, h => by
    unfold Memory.load
    rw [if_pos (by omega)]
    cases n with
    | zero => rw [read_load_below bs _ (by omega), Nat.add_zero, read_write_self]; rfl
    | succ n =>
      have := read_load bs (m.write a b) (a := a + 1) (n := n) (by simpa using hn) (by omega)
      rw [show a + (n + 1) = a + 1 + n by omega, this]; rfl

/-! ### Ranges -/

/-- What `readBytes` can answer: as many bytes as asked, each the byte at its address. -/
theorem readBytes_eq_some {m : Memory} : ∀ {n a : Nat} {bs : List Byte}, m.readBytes a n = some bs →
    bs.length = n ∧ ∀ k, k < n → m.read (a + k) = bs[k]?
  | 0, _, bs, h => by
    have hb : bs = [] := by simpa [Memory.readBytes] using h.symm
    subst hb
    exact ⟨rfl, fun k hk => absurd hk (by omega)⟩
  | n + 1, a, bs, h => by
    unfold Memory.readBytes at h
    split at h
    · rename_i b bs' hb hbs
      cases h
      obtain ⟨hl, hr⟩ := readBytes_eq_some hbs
      refine ⟨by simp [hl], fun k hk => ?_⟩
      cases k with
      | zero => simpa using hb
      | succ k =>
        have := hr k (by omega)
        rw [show a + 1 + k = a + (k + 1) by omega] at this
        simpa using this
    · cases h

/-- `readBytes` answers when every byte has a value. -/
theorem readBytes_isSome {m : Memory} : ∀ {n a : Nat}, (∀ k, k < n → (m.read (a + k)).isSome = true) →
    ∃ bs, m.readBytes a n = some bs
  | 0, _, _ => ⟨[], rfl⟩
  | n + 1, a, h => by
    obtain ⟨b, hb⟩ := Option.isSome_iff_exists.1 (h 0 (by omega))
    obtain ⟨bs, hbs⟩ := readBytes_isSome (m := m) (n := n) (a := a + 1) fun k hk => by
      have := h (k + 1) (by omega)
      rwa [show a + (k + 1) = a + 1 + k by omega] at this
    refine ⟨b :: bs, ?_⟩
    rw [Nat.add_zero] at hb
    simp [Memory.readBytes, hb, hbs]

/-- `readRange` answers exactly when the range does not wrap and every byte has a value (20_memory.md R37). -/
theorem readRange_isSome_iff {m : Memory} {a : Addr} {n : Nat} :
    (∃ bs, m.readRange a n = some bs) ↔ a.toNat + n ≤ 2 ^ 64 ∧ ∀ k < n, (m.read (a.toNat + k)).isSome = true := by
  unfold Memory.readRange
  constructor
  · rintro ⟨bs, h⟩
    split at h
    · obtain ⟨hl, hr⟩ := readBytes_eq_some h
      refine ⟨‹_›, fun k hk => ?_⟩
      rw [hr k hk, List.getElem?_eq_getElem (by omega)]; rfl
    · cases h
  · rintro ⟨h1, h2⟩
    rw [if_pos h1]
    exact readBytes_isSome fun k hk => h2 k hk

/-- The bytes of an admitted range are the bytes at its addresses. -/
theorem readRange_eq_some {m : Memory} {a : Addr} {n : Nat} {bs : List Byte} (h : m.readRange a n = some bs) :
    a.toNat + n ≤ 2 ^ 64 ∧ bs.length = n ∧ ∀ k, k < n → m.read (a.toNat + k) = bs[k]? := by
  unfold Memory.readRange at h
  split at h
  · exact ⟨‹_›, readBytes_eq_some h⟩
  · cases h

/-- The admitted run from an address is no longer than asked, stays inside the address space, and holds the bytes there. -/
theorem admittedFrom_spec {m : Memory} : ∀ (n a : Nat),
    (m.admittedFrom a n).length ≤ n ∧ (m.admittedFrom a n ≠ [] → a + (m.admittedFrom a n).length ≤ 2 ^ 64) ∧
    ∀ k, k < (m.admittedFrom a n).length → m.read (a + k) = (m.admittedFrom a n)[k]?
  | 0, _ => ⟨Nat.le_refl _, fun h => absurd rfl h, fun k hk => absurd hk (by simp [Memory.admittedFrom])⟩
  | n + 1, a => by
    unfold Memory.admittedFrom
    split
    · split
      · rename_i hlt b hb
        obtain ⟨h1, h2, h3⟩ := admittedFrom_spec (m := m) n (a + 1)
        refine ⟨by simpa using h1, fun _ => ?_, fun k hk => ?_⟩
        · by_cases he : m.admittedFrom (a + 1) n = []
          · simp [he]; omega
          · have := h2 he; simp only [List.length_cons]; omega
        · cases k with
          | zero => simpa using hb
          | succ k =>
            have := h3 k (by simpa using hk)
            rw [show a + 1 + k = a + (k + 1) by omega] at this
            simpa using this
      · exact ⟨Nat.zero_le _, fun h => absurd rfl h, fun k hk => absurd hk (by simp)⟩
    · exact ⟨Nat.zero_le _, fun h => absurd rfl h, fun k hk => absurd hk (by simp)⟩

/-- Where memory holds a list of bytes, the admitted run begins with it. -/
theorem admittedFrom_prefix {m : Memory} : ∀ (bs : List Byte) (n a : Nat), bs.length ≤ n → a + bs.length ≤ 2 ^ 64 →
    (∀ k, k < bs.length → m.read (a + k) = bs[k]?) → ∃ rest, m.admittedFrom a n = bs ++ rest
  | [], n, a, _, _, _ => ⟨m.admittedFrom a n, rfl⟩
  | b :: bs, 0, _, h, _, _ => absurd h (by simp)
  | b :: bs, n + 1, a, hn, ha, h => by
    simp only [List.length_cons] at hn ha
    have h0 := h 0 (by simp)
    obtain ⟨rest, hr⟩ := admittedFrom_prefix (m := m) bs n (a + 1) (by omega) (by omega) fun k hk => by
      have := h (k + 1) (by simpa using hk)
      rw [show a + (k + 1) = a + 1 + k by omega] at this
      simpa using this
    refine ⟨rest, ?_⟩
    simp only [Nat.add_zero, List.getElem?_cons_zero] at h0
    rw [Memory.admittedFrom, if_pos (by omega), h0]
    simp [hr]

end Sys2Proof.Machine
end

