-- ==== Sys2Proof/Laws/Lanes.lean ====
section
/-! SUPPORT. Elements of vectors: what `packLanes`, `lowBits` and `packBytes` hold in each element. -/

namespace Sys2Proof.Machine

theorem lane_eq (v : ZmmVal) (j : Nat) : lane v j = v.extractLsb' (32 * j) 32 := rfl

theorem lane_bit (v : ZmmVal) (j b : Nat) : (lane v j).getLsbD b = (decide (b < 32) && v.getLsbD (32 * j + b)) := by
  simp [lane]

/-- A bit of packed elements: of element `b / 32` where that is below `n`. -/
theorem packLanes_bit (f : Nat → Elem) : ∀ (n : Nat), n ≤ 16 → ∀ b : Nat,
    (packLanes n f).getLsbD b = (decide (b < 32 * n) && (f (b / 32)).getLsbD (b % 32))
  | 0, _, b => by simp [packLanes]
  | n + 1, hn, b => by
    rw [packLanes, BitVec.getLsbD_or, packLanes_bit f n (by omega) b, BitVec.getLsbD_shiftLeft, BitVec.getLsbD_setWidth]
    by_cases h1 : b < 32 * n
    · simp [h1, show b < 32 * (n + 1) by omega]
    · by_cases h2 : b < 32 * (n + 1)
      · have e1 : b / 32 = n := by omega
        have e2 : b - 32 * n = b % 32 := by omega
        have e3 : b < 512 := by omega
        have e4 : b % 32 < 512 := by omega
        simp [h1, h2, e1, e2, e3, e4]
      · have : (f n).getLsbD (b - 32 * n) = false := BitVec.getLsbD_of_ge _ _ (by omega)
        simp [h1, h2, this]

/-- Element `j` of packed elements. -/
theorem lane_packLanes (f : Nat → Elem) {n j : Nat} (hn : n ≤ 16) (hj : j < n) : lane (packLanes n f) j = f j := by
  apply BitVec.eq_of_getLsbD_eq
  intro b hb
  rw [lane_bit, packLanes_bit f n hn]
  have e1 : (32 * j + b) / 32 = j := by omega
  have e2 : (32 * j + b) % 32 = b := by omega
  have e3 : 32 * j + b < 32 * n := by omega
  simp [hb, e1, e2, e3]

/-- No bit of packed elements stands above them. -/
theorem packLanes_above (f : Nat → Elem) {n b : Nat} (hn : n ≤ 16) (hb : 32 * n ≤ b) :
    (packLanes n f).getLsbD b = false := by
  rw [packLanes_bit f n hn]
  simp [show ¬ b < 32 * n by omega]

/-- Packed elements depend on the elements packed only. -/
theorem packLanes_congr {f g : Nat → Elem} {n : Nat} (h : ∀ j, j < n → f j = g j) : packLanes n f = packLanes n g := by
  induction n with
  | zero => rfl
  | succ n ih => rw [packLanes, packLanes, ih fun j hj => h j (by omega), h n (by omega)]

theorem kl_le (vl : VecLen) : kl vl ≤ 16 := by cases vl <;> decide

/-- The low part of a register has the register's elements below VL. -/
theorem lane_lowBits (vl : VecLen) (v : ZmmVal) {j : Nat} (hj : j < kl vl) : lane (lowBits vl v) j = lane v j := by
  apply BitVec.eq_of_getLsbD_eq
  intro b hb
  have := kl_le vl
  have h1 : 32 * j + b < 512 := by omega
  have h2 : 32 * j + b < vlBits vl := by unfold vlBits; omega
  simp [lane_bit, lowBits, h1, h2]

/-- A bit of a little-endian value: of byte `b / 8`. -/
theorem packBytes_bit : ∀ (bs : List Byte), bs.length ≤ 64 → ∀ b : Nat,
    (packBytes bs).getLsbD b = (bs[b / 8]?.getD 0).getLsbD (b % 8)
  | [], _, b => by simp [packBytes]
  | x :: bs, h, b => by
    simp only [List.length_cons] at h
    rw [packBytes, BitVec.getLsbD_or, BitVec.getLsbD_shiftLeft, BitVec.getLsbD_setWidth, packBytes_bit bs (by omega)]
    by_cases h1 : b < 8
    · have e1 : b / 8 = 0 := by omega
      have e2 : b % 8 = b := by omega
      have e3 : b < 512 := by omega
      simp [h1, e1, e2, e3]
    · have e1 : b / 8 = (b - 8) / 8 + 1 := by omega
      have e2 : (b - 8) % 8 = b % 8 := by omega
      have hx : x.getLsbD b = false := BitVec.getLsbD_of_ge _ _ (by omega)
      rw [hx, e1, List.getElem?_cons_succ, e2]
      by_cases h2 : b < 512
      · simp [h1, h2]
      · have : bs[(b - 8) / 8]? = none := List.getElem?_eq_none (by omega)
        simp [h2, this]

/-- A bit of an element in memory. -/
theorem memElem_bit (m : Memory) (a b : Nat) (hb : b < 32) :
    (memElem m a).getLsbD b = ((m.read (a + b / 8)).getD 0).getLsbD (b % 8) := by
  unfold memElem
  simp only [BitVec.getLsbD_append]
  rcases (by omega : b < 8 ∨ (8 ≤ b ∧ b < 16) ∨ (16 ≤ b ∧ b < 24) ∨ (24 ≤ b ∧ b < 32)) with h | h | h | h
  · have e1 : b / 8 = 0 := by omega
    have e2 : b % 8 = b := by omega
    simp [h, e1, e2]
  · have e1 : b / 8 = 1 := by omega
    have e2 : b % 8 = b - 8 := by omega
    simp [show ¬ b < 8 by omega, show b - 8 < 8 by omega, e1, e2]
  · have e1 : b / 8 = 2 := by omega
    have e2 : b % 8 = b - 8 - 8 := by omega
    simp [show ¬ b < 8 by omega, show ¬ b - 8 < 8 by omega, show b - 8 - 8 < 8 by omega, e1, e2]
  · have e1 : b / 8 = 3 := by omega
    have e2 : b % 8 = b - 8 - 8 - 8 := by omega
    simp [show ¬ b < 8 by omega, show ¬ b - 8 < 8 by omega, show ¬ b - 8 - 8 < 8 by omega, e1, e2]

end Sys2Proof.Machine
end

