-- ==== Sys2Proof/Laws/State.lean ====
section
/-! SUPPORT. One lemma per field of State and update, and the reads after a register write. -/

namespace Sys2Proof.Machine

variable (s : State)

@[simp] theorem writeZmm_zmm (i : VReg) (v : ZmmVal) : (s.writeZmm i v).zmm = s.zmm.set i.toNat v i.isLt := rfl
@[simp] theorem writeZmm_k (i : VReg) (v : ZmmVal) : (s.writeZmm i v).k = s.k := rfl
@[simp] theorem writeZmm_mxcsr (i : VReg) (v : ZmmVal) : (s.writeZmm i v).mxcsr = s.mxcsr := rfl
@[simp] theorem writeZmm_gpr (i : VReg) (v : ZmmVal) : (s.writeZmm i v).gpr = s.gpr := rfl
@[simp] theorem writeZmm_rip (i : VReg) (v : ZmmVal) : (s.writeZmm i v).rip = s.rip := rfl
@[simp] theorem writeZmm_mem (i : VReg) (v : ZmmVal) : (s.writeZmm i v).mem = s.mem := rfl
@[simp] theorem writeZmm_mode (i : VReg) (v : ZmmVal) : (s.writeZmm i v).mode = s.mode := rfl
@[simp] theorem writeZmm_osEnabled (i : VReg) (v : ZmmVal) : (s.writeZmm i v).osEnabled = s.osEnabled := rfl
@[simp] theorem writeZmm_cfg (i : VReg) (v : ZmmVal) : (s.writeZmm i v).cfg = s.cfg := rfl

@[simp] theorem setFlags_zmm (ie de : Bool) : (s.setFlags ie de).zmm = s.zmm := rfl
@[simp] theorem setFlags_k (ie de : Bool) : (s.setFlags ie de).k = s.k := rfl
@[simp] theorem setFlags_mxcsr (ie de : Bool) : (s.setFlags ie de).mxcsr = s.mxcsr ||| flagWord ie de := rfl
@[simp] theorem setFlags_gpr (ie de : Bool) : (s.setFlags ie de).gpr = s.gpr := rfl
@[simp] theorem setFlags_rip (ie de : Bool) : (s.setFlags ie de).rip = s.rip := rfl
@[simp] theorem setFlags_mem (ie de : Bool) : (s.setFlags ie de).mem = s.mem := rfl
@[simp] theorem setFlags_mode (ie de : Bool) : (s.setFlags ie de).mode = s.mode := rfl
@[simp] theorem setFlags_osEnabled (ie de : Bool) : (s.setFlags ie de).osEnabled = s.osEnabled := rfl
@[simp] theorem setFlags_cfg (ie de : Bool) : (s.setFlags ie de).cfg = s.cfg := rfl

@[simp] theorem advance_zmm (len : Nat) : (s.advance len).zmm = s.zmm := rfl
@[simp] theorem advance_k (len : Nat) : (s.advance len).k = s.k := rfl
@[simp] theorem advance_mxcsr (len : Nat) : (s.advance len).mxcsr = s.mxcsr := rfl
@[simp] theorem advance_gpr (len : Nat) : (s.advance len).gpr = s.gpr := rfl
@[simp] theorem advance_rip (len : Nat) : (s.advance len).rip = s.nextRip len := rfl
@[simp] theorem advance_mem (len : Nat) : (s.advance len).mem = s.mem := rfl
@[simp] theorem advance_mode (len : Nat) : (s.advance len).mode = s.mode := rfl
@[simp] theorem advance_osEnabled (len : Nat) : (s.advance len).osEnabled = s.osEnabled := rfl
@[simp] theorem advance_cfg (len : Nat) : (s.advance len).cfg = s.cfg := rfl

@[simp] theorem loadBytes_zmm (a : Nat) (bs : List Byte) : (s.loadBytes a bs).zmm = s.zmm := rfl
@[simp] theorem loadBytes_k (a : Nat) (bs : List Byte) : (s.loadBytes a bs).k = s.k := rfl
@[simp] theorem loadBytes_mxcsr (a : Nat) (bs : List Byte) : (s.loadBytes a bs).mxcsr = s.mxcsr := rfl
@[simp] theorem loadBytes_gpr (a : Nat) (bs : List Byte) : (s.loadBytes a bs).gpr = s.gpr := rfl
@[simp] theorem loadBytes_rip (a : Nat) (bs : List Byte) : (s.loadBytes a bs).rip = s.rip := rfl
@[simp] theorem loadBytes_mem (a : Nat) (bs : List Byte) : (s.loadBytes a bs).mem = s.mem.load a bs := rfl
@[simp] theorem loadBytes_mode (a : Nat) (bs : List Byte) : (s.loadBytes a bs).mode = s.mode := rfl
@[simp] theorem loadBytes_osEnabled (a : Nat) (bs : List Byte) : (s.loadBytes a bs).osEnabled = s.osEnabled := rfl
@[simp] theorem loadBytes_cfg (a : Nat) (bs : List Byte) : (s.loadBytes a bs).cfg = s.cfg := rfl

@[simp] theorem noteFlags_zmm (sae ie de : Bool) : (s.noteFlags sae ie de).zmm = s.zmm := by cases sae <;> rfl
@[simp] theorem noteFlags_k (sae ie de : Bool) : (s.noteFlags sae ie de).k = s.k := by cases sae <;> rfl
theorem noteFlags_mxcsr (sae ie de : Bool) :
    (s.noteFlags sae ie de).mxcsr = if sae then s.mxcsr else s.mxcsr ||| flagWord ie de := by
  cases sae <;> rfl
@[simp] theorem noteFlags_gpr (sae ie de : Bool) : (s.noteFlags sae ie de).gpr = s.gpr := by cases sae <;> rfl
@[simp] theorem noteFlags_rip (sae ie de : Bool) : (s.noteFlags sae ie de).rip = s.rip := by cases sae <;> rfl
@[simp] theorem noteFlags_mem (sae ie de : Bool) : (s.noteFlags sae ie de).mem = s.mem := by cases sae <;> rfl
@[simp] theorem noteFlags_mode (sae ie de : Bool) : (s.noteFlags sae ie de).mode = s.mode := by cases sae <;> rfl
@[simp] theorem noteFlags_osEnabled (sae ie de : Bool) : (s.noteFlags sae ie de).osEnabled = s.osEnabled := by cases sae <;> rfl
@[simp] theorem noteFlags_cfg (sae ie de : Bool) : (s.noteFlags sae ie de).cfg = s.cfg := by cases sae <;> rfl

/-! ### Reads of registers -/

@[simp] theorem readZmm_writeZmm_self (i : VReg) (v : ZmmVal) : (s.writeZmm i v).readZmm i = v := by
  simp [State.readZmm]

theorem readZmm_writeZmm_ne {i r : VReg} (v : ZmmVal) (h : r ≠ i) : (s.writeZmm i v).readZmm r = s.readZmm r := by
  have hne : i.toNat ≠ r.toNat := fun e => h (BitVec.eq_of_toNat_eq e.symm)
  simp [State.readZmm, Vector.getElem_set_ne, hne]

@[simp] theorem readK_writeZmm (i : VReg) (v : ZmmVal) (a : KReg) : (s.writeZmm i v).readK a = s.readK a := rfl
@[simp] theorem readGpr_writeZmm (i : VReg) (v : ZmmVal) (r : GReg) : (s.writeZmm i v).readGpr r = s.readGpr r := rfl
@[simp] theorem readZmm_advance (len : Nat) (r : VReg) : (s.advance len).readZmm r = s.readZmm r := rfl
@[simp] theorem readZmm_setFlags (ie de : Bool) (r : VReg) : (s.setFlags ie de).readZmm r = s.readZmm r := rfl
@[simp] theorem readZmm_noteFlags (sae ie de : Bool) (r : VReg) : (s.noteFlags sae ie de).readZmm r = s.readZmm r := by
  cases sae <;> rfl
@[simp] theorem readK_advance (len : Nat) (a : KReg) : (s.advance len).readK a = s.readK a := rfl
@[simp] theorem readK_noteFlags (sae ie de : Bool) (a : KReg) : (s.noteFlags sae ie de).readK a = s.readK a := by
  cases sae <;> rfl

/-- Two writes of different registers commute. -/
theorem writeZmm_comm {i r : VReg} (v w : ZmmVal) (h : i ≠ r) :
    (s.writeZmm i v).writeZmm r w = (s.writeZmm r w).writeZmm i v := by
  have hne : i.toNat ≠ r.toNat := fun e => h (BitVec.eq_of_toNat_eq e)
  simp only [State.writeZmm]
  rw [Vector.set_comm _ _ hne]

/-! ### MXCSR -/

theorem flagWord_bit (ie de : Bool) (b : Nat) :
    (flagWord ie de).getLsbD b = ((b == 0 && ie) || (b == 1 && de)) := by
  rcases b with _ | _ | b
  · cases ie <;> cases de <;> rfl
  · cases ie <;> cases de <;> rfl
  · rw [flagWord, BitVec.getLsbD_setWidth, BitVec.getLsbD_of_ge _ _ (by omega)]
    simp

theorem setFlags_bit (ie de : Bool) (b : Nat) :
    (s.mxcsr ||| flagWord ie de).getLsbD b = (s.mxcsr.getLsbD b || (b == 0 && ie) || (b == 1 && de)) := by
  simp [flagWord_bit, Bool.or_assoc]

end Sys2Proof.Machine
end

