-- ==== Sys2Proof/Laws/Getexp.lean ====
section
/-! SUPPORT. What the vector operation can do, said once: every meaning as one call of it, its outcomes, the source it reads, and the state
it leaves. -/

namespace Sys2Proof.Machine

/-! ### Every meaning is one call of the vector operation -/

/-- The source of an instruction. -/
def sourceOf (i : Instr) (s : State) : Source :=
  match i with
  | .vgetexpps128Reg _ r _ _    => .reg r
  | .vgetexpps128Mem _ m _ _    => fullSource .v128 i.length s m
  | .vgetexpps128Bcst _ m _ _   => bcstSource i.length s m
  | .vgetexpps256Reg _ r _ _    => .reg r
  | .vgetexpps256Mem _ m _ _    => fullSource .v256 i.length s m
  | .vgetexpps256Bcst _ m _ _   => bcstSource i.length s m
  | .vgetexpps512Reg _ r _ _    => .reg r
  | .vgetexpps512Mem _ m _ _    => fullSource .v512 i.length s m
  | .vgetexpps512Bcst _ m _ _   => bcstSource i.length s m
  | .vgetexpps512RegSae _ r _ _ => .reg r

theorem exec_eq (i : Instr) (s : State) :
    exec i s = vgetexpps i.vecLen i.dest (sourceOf i s) i.maskReg i.zeroing i.isSae i.length s := by
  cases i <;> rfl

/-! ### The outcomes of the vector operation -/

section Outcomes
variable {vl : VecLen} {d : VReg} {src : Source} {aaa : KReg} {z sae : Bool} {len : Nat} {s : State}

theorem vgetexpps_not_enabled (h : s.osEnabled = false) :
    vgetexpps vl d src aaa z sae len s = .refused .osNotEnabled := by
  simp [vgetexpps, h]

theorem vgetexpps_no_feature (h : s.osEnabled = true) (hf : featuresPresent s.cfg vl = false) :
    vgetexpps vl d src aaa z sae len s = .fault (.ud s.rip) := by
  simp [vgetexpps, h, hf, raise]

theorem vgetexpps_source_error (h : s.osEnabled = true) (hf : featuresPresent s.cfg vl = true) {a : Addr} {n : Nat}
    (he : sourceValue vl s src = .error (a, n)) : vgetexpps vl d src aaa z sae len s = .fault (.memFault s.rip a n) := by
  simp [vgetexpps, h, hf, he, raise]

theorem vgetexpps_source_ok (h : s.osEnabled = true) (hf : featuresPresent s.cfg vl = true) {S : ZmmVal}
    (he : sourceValue vl s src = .ok S) : vgetexpps vl d src aaa z sae len s = finish vl d S aaa z sae len s := by
  simp [vgetexpps, h, hf, he]

/-- The inversion of completion: an operation that answers next is enabled, read its source, requested nothing unmasked, and left the
completed state. -/
theorem vgetexpps_next {t : State} (h : vgetexpps vl d src aaa z sae len s = .next t) :
    s.osEnabled = true ∧ featuresPresent s.cfg vl = true ∧ ∃ S, sourceValue vl s src = .ok S ∧
      (sae = true ∨ unmasked s.mxcsr (ieAny vl s S aaa) (deAny vl s S aaa) = false) ∧
      t = completed vl d S aaa z sae len s := by
  cases ho : s.osEnabled with
  | false => rw [vgetexpps_not_enabled ho] at h; cases h
  | true =>
    cases hf : featuresPresent s.cfg vl with
    | false => rw [vgetexpps_no_feature ho hf] at h; cases h
    | true =>
      cases he : sourceValue vl s src with
      | error e => obtain ⟨a, n⟩ := e; rw [vgetexpps_source_error ho hf he] at h; cases h
      | ok S =>
        rw [vgetexpps_source_ok ho hf he] at h
        refine ⟨rfl, rfl, S, rfl, ?_⟩
        unfold finish at h
        split at h
        · cases h
        · rename_i hn
          cases h
          refine ⟨?_, rfl⟩
          cases sae <;> simp_all

end Outcomes

theorem featuresPresent_iff (i : Instr) (s : State) :
    featuresPresent s.cfg i.vecLen = true ↔ s.cfg.hasAVX512F = true ∧ (i.vecLen = .v512 ∨ s.cfg.hasAVX512VL = true) := by
  cases i.vecLen <;> simp [featuresPresent]

/-! ### The source -/

theorem sourceValue_reg (vl : VecLen) (s : State) (r : VReg) :
    sourceValue vl s (.reg r) = .ok (lowBits vl (s.readZmm r)) := rfl

theorem sourceValue_some {vl : VecLen} {s : State} {ea : Addr} {bcst : Bool} {bs : List Byte}
    (h : s.mem.readRange ea (readSize vl bcst) = some bs) :
    sourceValue vl s (.mem ea bcst) =
      .ok (if bcst then packLanes (kl vl) (fun _ => (packBytes bs).setWidth 32) else packBytes bs) := by
  simp only [sourceValue, h]

theorem sourceValue_error {vl : VecLen} {s : State} {ea : Addr} {bcst : Bool}
    (h : s.mem.readRange ea (readSize vl bcst) = none) :
    sourceValue vl s (.mem ea bcst) = .error (ea, readSize vl bcst) := by
  simp only [sourceValue, h]

/-- A memory source is read where its range is admitted. -/
theorem sourceValue_mem {vl : VecLen} {s : State} {ea : Addr} {bcst : Bool} {S : ZmmVal}
    (h : sourceValue vl s (.mem ea bcst) = .ok S) : ∃ bs, s.mem.readRange ea (readSize vl bcst) = some bs ∧
      S = if bcst then packLanes (kl vl) (fun _ => (packBytes bs).setWidth 32) else packBytes bs := by
  cases hr : s.mem.readRange ea (readSize vl bcst) with
  | none => rw [sourceValue_error hr] at h; cases h
  | some bs =>
    rw [sourceValue_some hr] at h
    exact ⟨bs, rfl, (Except.ok.inj h).symm⟩

theorem readSize_le (vl : VecLen) (bcst : Bool) : readSize vl bcst ≤ 64 := by
  cases vl <;> cases bcst <;> decide

theorem packBytes_lane {m : Memory} {a : Addr} {n j : Nat} {bs : List Byte} (h : m.readRange a n = some bs) (hn : n ≤ 64)
    (hj : 4 * j + 4 ≤ n) : lane (packBytes bs) j = memElem m (a.toNat + 4 * j) := by
  obtain ⟨_, hl, hr⟩ := readRange_eq_some h
  apply BitVec.eq_of_getLsbD_eq
  intro b hb
  rw [lane_bit, packBytes_bit bs (by omega), memElem_bit m _ b hb, show a.toNat + 4 * j + b / 8 = a.toNat + (4 * j + b / 8) by omega,
    hr (4 * j + b / 8) (by omega), show (32 * j + b) / 8 = 4 * j + b / 8 by omega, show (32 * j + b) % 8 = b % 8 by omega]
  simp [hb]

/-- Element `j` of a source value, by kind of source. -/
theorem lane_sourceValue_full {vl : VecLen} {s : State} {ea : Addr} {S : ZmmVal} {j : Nat}
    (h : sourceValue vl s (.mem ea false) = .ok S) (hj : j < kl vl) : lane S j = memElem s.mem (ea.toNat + 4 * j) := by
  obtain ⟨bs, hbs, rfl⟩ := sourceValue_mem h
  refine packBytes_lane hbs (readSize_le vl false) ?_
  change 4 * j + 4 ≤ 4 * kl vl
  omega

theorem lane_sourceValue_bcst {vl : VecLen} {s : State} {ea : Addr} {S : ZmmVal} {j : Nat}
    (h : sourceValue vl s (.mem ea true) = .ok S) (hj : j < kl vl) : lane S j = memElem s.mem ea.toNat := by
  obtain ⟨bs, hbs, rfl⟩ := sourceValue_mem h
  have h0 := packBytes_lane (j := 0) hbs (readSize_le vl true) (Nat.le_refl 4)
  rw [if_pos rfl, lane_packLanes _ (kl_le vl) hj, ← Nat.add_zero ea.toNat, ← Nat.mul_zero 4, ← h0]
  apply BitVec.eq_of_getLsbD_eq
  intro b hb
  rw [lane_bit, BitVec.getLsbD_setWidth]
  simp [hb]

/-- The source value an instruction reads has the source elements that claims name. -/
theorem lane_sourceValue {i : Instr} {s : State} {S : ZmmVal} (h : sourceValue i.vecLen s (sourceOf i s) = .ok S) {j : Nat}
    (hj : j < kl i.vecLen) : lane S j = sourceElem i s j := by
  cases i with
  | vgetexpps128Reg d r aaa z => exact Except.ok.inj h ▸ lane_lowBits _ _ hj
  | vgetexpps256Reg d r aaa z => exact Except.ok.inj h ▸ lane_lowBits _ _ hj
  | vgetexpps512Reg d r aaa z => exact Except.ok.inj h ▸ lane_lowBits _ _ hj
  | vgetexpps512RegSae d r aaa z => exact Except.ok.inj h ▸ lane_lowBits _ _ hj
  | vgetexpps128Mem d m aaa z => exact lane_sourceValue_full h hj
  | vgetexpps256Mem d m aaa z => exact lane_sourceValue_full h hj
  | vgetexpps512Mem d m aaa z => exact lane_sourceValue_full h hj
  | vgetexpps128Bcst d m aaa z => exact lane_sourceValue_bcst h hj
  | vgetexpps256Bcst d m aaa z => exact lane_sourceValue_bcst h hj
  | vgetexpps512Bcst d m aaa z => exact lane_sourceValue_bcst h hj

/-- The source of an instruction: a register where there is no operand range, and else a memory source over that range. -/
theorem sourceOf_range (i : Instr) (s : State) :
    (operandRange i s = none ∧ ∃ r, sourceOf i s = .reg r) ∨
    ∃ ea bcst, operandRange i s = some (ea, readSize i.vecLen bcst) ∧ sourceOf i s = .mem ea bcst := by
  cases i with
  | vgetexpps128Reg d r aaa z => exact .inl ⟨rfl, r, rfl⟩
  | vgetexpps256Reg d r aaa z => exact .inl ⟨rfl, r, rfl⟩
  | vgetexpps512Reg d r aaa z => exact .inl ⟨rfl, r, rfl⟩
  | vgetexpps512RegSae d r aaa z => exact .inl ⟨rfl, r, rfl⟩
  | vgetexpps128Mem d m aaa z => exact .inr ⟨_, false, rfl, rfl⟩
  | vgetexpps256Mem d m aaa z => exact .inr ⟨_, false, rfl, rfl⟩
  | vgetexpps512Mem d m aaa z => exact .inr ⟨_, false, rfl, rfl⟩
  | vgetexpps128Bcst d m aaa z => exact .inr ⟨_, true, rfl, rfl⟩
  | vgetexpps256Bcst d m aaa z => exact .inr ⟨_, true, rfl, rfl⟩
  | vgetexpps512Bcst d m aaa z => exact .inr ⟨_, true, rfl, rfl⟩

/-- An instruction's source is read exactly where its operand is admitted. -/
theorem source_ok_iff (i : Instr) (s : State) :
    (∃ S, sourceValue i.vecLen s (sourceOf i s) = .ok S) ↔ OperandAdmitted i s := by
  unfold OperandAdmitted
  rcases sourceOf_range i s with ⟨hn, r, hr⟩ | ⟨ea, bcst, hs, hr⟩
  · rw [hn, hr]
    exact ⟨fun _ _ _ h => (Option.some_ne_none _ h.symm).elim, fun _ => ⟨_, rfl⟩⟩
  · rw [hs, hr]
    constructor
    · rintro ⟨S, h⟩ ea' n' he
      cases he
      obtain ⟨bs, hbs, _⟩ := sourceValue_mem h
      exact readRange_isSome_iff.1 ⟨bs, hbs⟩
    · intro h
      obtain ⟨bs, hbs⟩ := readRange_isSome_iff.2 (h _ _ rfl)
      exact ⟨_, sourceValue_some hbs⟩

theorem source_error {i : Instr} {s : State} {ea : Addr} {n : Nat} (hr : operandRange i s = some (ea, n))
    (ha : ¬ Admit s.mem ea n) : sourceValue i.vecLen s (sourceOf i s) = .error (ea, n) := by
  rcases sourceOf_range i s with ⟨hn, _⟩ | ⟨ea', bcst, hs, hsrc⟩
  · rw [hn] at hr; cases hr
  · rw [hs] at hr
    cases hr
    rw [hsrc]
    apply sourceValue_error
    rw [Option.eq_none_iff_forall_ne_some]
    exact fun bs hbs => ha (readRange_isSome_iff.1 ⟨bs, hbs⟩)

/-! ### The completed state -/

section Completed
variable (vl : VecLen) (d : VReg) (S : ZmmVal) (aaa : KReg) (z sae : Bool) (len : Nat) (s : State)

@[simp] theorem completed_k : (completed vl d S aaa z sae len s).k = s.k := by simp [completed]
@[simp] theorem completed_gpr : (completed vl d S aaa z sae len s).gpr = s.gpr := by simp [completed]
@[simp] theorem completed_mem : (completed vl d S aaa z sae len s).mem = s.mem := by simp [completed]
@[simp] theorem completed_mode : (completed vl d S aaa z sae len s).mode = s.mode := by simp [completed]
@[simp] theorem completed_osEnabled : (completed vl d S aaa z sae len s).osEnabled = s.osEnabled := by simp [completed]
@[simp] theorem completed_cfg : (completed vl d S aaa z sae len s).cfg = s.cfg := by simp [completed]

theorem completed_rip : (completed vl d S aaa z sae len s).rip = s.rip + BitVec.ofNat 64 len := by
  simp [completed, State.nextRip]

theorem completed_mxcsr : (completed vl d S aaa z sae len s).mxcsr =
    if sae then s.mxcsr else s.mxcsr ||| flagWord (ieAny vl s S aaa) (deAny vl s S aaa) := by
  simp [completed, noteFlags_mxcsr]

theorem completed_dest : (completed vl d S aaa z sae len s).readZmm d = resultVector vl s d S aaa z := by
  simp [completed]

theorem completed_other {r : VReg} (h : r ≠ d) : (completed vl d S aaa z sae len s).readZmm r = s.readZmm r := by
  simp [completed, readZmm_writeZmm_ne _ _ h]

theorem completed_frame : FrameOf d s (completed vl d S aaa z sae len s) where
  zmm _ h := completed_other vl d S aaa z sae len s h
  k := completed_k ..
  gpr := completed_gpr ..
  memory _ := by rw [completed_mem]
  mode := completed_mode ..
  osEnabled := completed_osEnabled ..
  cfg := completed_cfg ..

end Completed

/-! ### The writemask and the requests -/

theorem selected_iff (i : Instr) (s : State) (j : Nat) : selected s i.maskReg j = true ↔ Computed i s j := by
  simp [selected, Computed]

theorem ieAny_iff (vl : VecLen) (s : State) (S : ZmmVal) (aaa : KReg) :
    ieAny vl s S aaa = true ↔ ∃ j < kl vl, selected s aaa j = true ∧ (elementAt s S j).ie = true := by
  simp [ieAny, List.any_eq_true]

theorem deAny_iff (vl : VecLen) (s : State) (S : ZmmVal) (aaa : KReg) :
    deAny vl s S aaa = true ↔ ∃ j < kl vl, selected s aaa j = true ∧ (elementAt s S j).de = true := by
  simp [deAny, List.any_eq_true]

end Sys2Proof.Machine
end

