-- ==== Sys2Proof/Laws/PerInstr.lean ====
section
/-! SUPPORT. Statements about every instruction as syntax, one lemma per constructor. EncodedLength: an encoding has as many bytes as the
instruction's length (30_encoding.md R60), 6 to 11. -/

namespace Sys2Proof.Laws.EncodedLength

/-- The encoding of an instruction has its length, 6 to 11 bytes. -/
def Statement (i : Instr) : Prop := (encode i).length = i.length ∧ 6 ≤ i.length ∧ i.length ≤ 11

theorem memOp_length_le (m : MemOp) : m.length ≤ 5 := by
  cases m with
  | base r d => cases d <;> simp [MemOp.length, Disp.length]
  | ripRel d => simp [MemOp.length]
  | sib r ix d => cases d <;> simp [MemOp.length, Disp.length]
  | sibNoBase ix d => simp [MemOp.length]

theorem of_mem {i : Instr} {m : MemOp} (hf : i.fields.rm = .mem m) (hl : i.length = 6 + m.length) : Statement i := by
  have := memOp_length_le m
  refine ⟨?_, by omega, by omega⟩
  rw [encode, length_encodeFields, hf, length_encodeRM_mem, hl]

theorem vgetexpps128Reg (d s : VReg) (aaa : KReg) (z : Bool) : Statement (.vgetexpps128Reg d s aaa z) :=
  ⟨rfl, Nat.le_refl 6, by simp [Instr.length]⟩
theorem vgetexpps128Mem (d : VReg) (m : MemOp) (aaa : KReg) (z : Bool) : Statement (.vgetexpps128Mem d m aaa z) := of_mem rfl rfl
theorem vgetexpps128Bcst (d : VReg) (m : MemOp) (aaa : KReg) (z : Bool) : Statement (.vgetexpps128Bcst d m aaa z) := of_mem rfl rfl
theorem vgetexpps256Reg (d s : VReg) (aaa : KReg) (z : Bool) : Statement (.vgetexpps256Reg d s aaa z) :=
  ⟨rfl, Nat.le_refl 6, by simp [Instr.length]⟩
theorem vgetexpps256Mem (d : VReg) (m : MemOp) (aaa : KReg) (z : Bool) : Statement (.vgetexpps256Mem d m aaa z) := of_mem rfl rfl
theorem vgetexpps256Bcst (d : VReg) (m : MemOp) (aaa : KReg) (z : Bool) : Statement (.vgetexpps256Bcst d m aaa z) := of_mem rfl rfl
theorem vgetexpps512Reg (d s : VReg) (aaa : KReg) (z : Bool) : Statement (.vgetexpps512Reg d s aaa z) :=
  ⟨rfl, Nat.le_refl 6, by simp [Instr.length]⟩
theorem vgetexpps512Mem (d : VReg) (m : MemOp) (aaa : KReg) (z : Bool) : Statement (.vgetexpps512Mem d m aaa z) := of_mem rfl rfl
theorem vgetexpps512Bcst (d : VReg) (m : MemOp) (aaa : KReg) (z : Bool) : Statement (.vgetexpps512Bcst d m aaa z) := of_mem rfl rfl
theorem vgetexpps512RegSae (d s : VReg) (aaa : KReg) (z : Bool) : Statement (.vgetexpps512RegSae d s aaa z) :=
  ⟨rfl, Nat.le_refl 6, by simp [Instr.length]⟩

end Sys2Proof.Laws.EncodedLength
end

