-- ==== Sys2Proof/Laws/Step.lean ====
section
/-! SUPPORT. What a step can do, said once; the fetch of a word placed at `rip`; operand bytes that end too soon; the run of Safety.lean. -/

namespace Sys2Proof.Machine

/-- The inversion of a completed step: an instruction was decoded in 64-bit mode and its meaning answered the next state. -/
theorem step_next {s t : State} (h : step s = .next t) : ∃ i, s.mode = .bits64 ∧ s.fetchDecode = .ok i ∧ exec i s = .next t := by
  unfold step at h
  split at h
  · rename_i hm
    unfold runDecoded raise at h
    split at h
    · rename_i i hi; exact ⟨i, by simpa [State.modeAdmitted] using hm, hi, h⟩
    · cases h
    · cases h
    · cases h
    · cases h
  · cases h

/-- A step that completes left a completed state of the vector operation. -/
theorem step_completed {s t : State} (h : step s = .next t) : ∃ i S, s.fetchDecode = .ok i ∧
    sourceValue i.vecLen s (sourceOf i s) = .ok S ∧
    t = completed i.vecLen i.dest S i.maskReg i.zeroing i.isSae i.length s := by
  obtain ⟨i, _, hd, hx⟩ := step_next h
  rw [exec_eq] at hx
  obtain ⟨_, _, S, hS, _, ht⟩ := vgetexpps_next hx
  exact ⟨i, S, hd, hS, ht⟩

/-- A step faults as decoding says, or as the meaning of the instruction decoded does. -/
theorem step_of_decode {s : State} (hm : s.mode = .bits64) : step s = runDecoded s.fetchDecode s := by
  simp [step, State.modeAdmitted, hm]

theorem step_other_mode {s : State} (hm : s.mode ≠ .bits64) : step s = .refused .otherMode := by
  simp [step, State.modeAdmitted, hm]

/-- The bytes fetched are as many as the longest instruction at most, do not pass the top of the address space, and are those of
memory. -/
theorem codeBytes_spec (s : State) : s.codeBytes.length ≤ 11 ∧
    (s.codeBytes ≠ [] → s.rip.toNat + s.codeBytes.length ≤ 2 ^ 64) ∧
    ∀ k, k < s.codeBytes.length → s.mem.read (s.rip.toNat + k) = s.codeBytes[k]? :=
  admittedFrom_spec 11 s.rip.toNat

/-- Where memory holds bytes from `rip` on, the bytes fetched begin with them. -/
theorem codeBytes_prefix {s : State} (bs : List Byte) (h11 : bs.length ≤ 11) (hr : s.rip.toNat + bs.length ≤ 2 ^ 64)
    (h : ∀ k, k < bs.length → s.mem.read (s.rip.toNat + k) = bs[k]?) : ∃ rest, s.codeBytes = bs ++ rest :=
  admittedFrom_prefix bs 11 s.rip.toNat h11 hr h

/-- A word placed at `rip` is what the next step fetches. -/
theorem codeBytes_withFetchWord {s : State} {nbits w : Nat} (hl : (tableWordBytes nbits w).length = 11)
    (hr : s.rip.toNat + 11 ≤ 2 ^ 64) : (s.withFetchWord nbits w).codeBytes = tableWordBytes nbits w := by
  obtain ⟨rest, h⟩ := codeBytes_prefix (s := s.withFetchWord nbits w) (tableWordBytes nbits w) (by omega)
    (by rw [hl]; exact hr) fun k hk => read_load (tableWordBytes nbits w) s.mem hk (by omega)
  have h2 := (codeBytes_spec (s.withFetchWord nbits w)).1
  rw [h, List.length_append, hl] at h2
  have hrest : rest = [] := List.eq_nil_of_length_eq_zero (by omega)
  rw [h, hrest, List.append_nil]

/-! ### Operand bytes that end too soon -/

/-- A one-byte displacement that is missing: the need is reported. -/
theorem takeDisp8_short {need : Nat} {bs : List Byte} (h : bs.length < 1) : takeDisp8 need bs = .error need := by
  cases bs with
  | nil => rfl
  | cons b bs => simp at h

/-- A four-byte displacement of which a byte is missing: the need is reported. -/
theorem takeDisp32_short {need : Nat} {bs : List Byte} (h : bs.length < 4) : takeDisp32 need bs = .error need := by
  match bs, h with
  | [], _ => rfl
  | [_], _ => rfl
  | [_, _], _ => rfl
  | [_, _, _], _ => rfl
  | _ :: _ :: _ :: _ :: _, h => simp at h; omega

/-- The values of ModRM.mod of a memory operand. -/
theorem mod_cases {mod : BitVec 2} (hm : mod ≠ 3) : mod = 0 ∨ mod = 1 ∨ mod = 2 := by revert mod; decide

/-- Bytes that end inside the SIB byte or its displacement: the length of R60, or 7 where it hangs on a SIB byte that is missing. -/
theorem decodeSib_short {x b : Bool} {mod : BitVec 2} {rest : List Byte} (hm : mod ≠ 3)
    (h : rest.length < 1 + (if mod = 1 then 1 else if mod = 2 then 4 else if bits20 (rest.headD 0) = 5 then 4 else 0)) :
    decodeSib x b mod rest =
      .error (7 + (if mod = 1 then 1 else if mod = 2 then 4 else if bits20 (rest.headD 0) = 5 then 4 else 0)) := by
  cases rest with
  | nil => rcases mod_cases hm with rfl | rfl | rfl <;> rfl
  | cons c cs =>
    simp only [List.length_cons, List.headD_cons] at h ⊢
    rcases mod_cases hm with rfl | rfl | rfl
    · by_cases hc : bits20 c = 5#3
      · simp only [decodeSib, hc, reduceIte] at h ⊢
        rw [takeDisp32_short (by simp at h; omega)]; rfl
      · simp [hc] at h
    · simp only [decodeSib]
      rw [takeDisp8_short (by simp only [reduceIte] at h; omega)]; rfl
    · simp only [decodeSib]
      rw [takeDisp32_short (by simp at h; omega)]; rfl

/-- Bytes that end inside the displacement of an operand without SIB: the length of R60. -/
theorem decodeNoSib_short {b : Bool} {mod : BitVec 2} {rm : BitVec 3} {rest : List Byte} (hm : mod ≠ 3)
    (h : rest.length < (if mod = 1 then 1 else if mod = 2 then 4 else if rm = 5 then 4 else 0)) :
    decodeNoSib b mod rm rest = .error (6 + (if mod = 1 then 1 else if mod = 2 then 4 else if rm = 5 then 4 else 0)) := by
  rcases mod_cases hm with rfl | rfl | rfl
  · by_cases hr : rm = 5#3
    · subst hr
      simp only [decodeNoSib]
      rw [takeDisp32_short (by simpa using h)]; rfl
    · simp [hr] at h
  · simp only [decodeNoSib]
    rw [takeDisp8_short (by simpa using h)]; rfl
  · simp only [decodeNoSib]
    rw [takeDisp32_short (by simpa using h)]; rfl

/-- Bytes that end inside the operand: the need reported is 6 + sib + disp (30_encoding.md R60; a missing SIB byte counts as one without a
displacement where mod = 00, notes/assumptions/6.md). -/
theorem decodeRM_short {p0 m : Byte} {rest : List Byte} (h : rest.length < tailBytes m (rest.headD 0)) :
    decodeRM p0 m rest = .error (6 + tailBytes m (rest.headD 0)) := by
  by_cases hm : bits76 m = 3
  · simp [tailBytes, hm] at h
  · by_cases hr : bits20 m = 4
    · have ht : tailBytes m (rest.headD 0) =
          1 + (if bits76 m = 1 then 1 else if bits76 m = 2 then 4 else if bits20 (rest.headD 0) = 5 then 4 else 0) := by
        rcases mod_cases hm with h0 | h0 | h0 <;> simp only [tailBytes, h0, hr] <;> simp
      rw [ht] at h ⊢
      rw [decodeRM, if_neg hm, if_pos hr, decodeSib_short hm h, ← Nat.add_assoc]; rfl
    · have ht : tailBytes m (rest.headD 0) = (if bits76 m = 1 then 1 else if bits76 m = 2 then 4 else if bits20 m = 5 then 4 else 0) := by
        rcases mod_cases hm with h0 | h0 | h0 <;> rw [tailBytes, h0, if_neg (fun hh => hr hh.2)] <;> simp only [hr] <;> simp
      rw [ht] at h ⊢
      rw [decodeRM, if_neg hm, if_neg hr, decodeNoSib_short hm h]; rfl

/-! ### The run -/

/-- A run at END_ADDR is over and final (70_reset_and_hazards.md R126). -/
theorem run_at_end (endAddr : Addr) (fuel : Nat) {s : State} (h : s.rip = endAddr) : run endAddr fuel s = .final s := by
  cases fuel <;> simp [run, h]

/-- A run away from END_ADDR takes one step. -/
theorem run_step (endAddr : Addr) (fuel : Nat) {s t : State} (h : s.rip ≠ endAddr) (hs : step s = .next t) :
    run endAddr (fuel + 1) s = run endAddr fuel t := by
  simp [run, h, hs]

end Sys2Proof.Machine
end

