-- ==== Sys2Proof/Tests/Slice0.lean ====
section
/-! SUPPORT. Small tests. Expected values are those of 95_test_vectors.md (V, X, E, T numbers) or of the examples in 41_vgetexpps.md;
then, for each obligation with hypotheses, a theorem that shows states and operands meeting them. -/

open Sys2Proof Sys2Proof.Machine

namespace Sys2Proof.Tests

-- The evaluations below run one after another: together they would take a thread each.
set_option Elab.async false

/-! ### Helpers -/

/-- Elements, lowest first, as a register value. -/
def vec (xs : List Elem) : ZmmVal := packLanes xs.length fun j => xs.getD j 0

/-- The bytes of dwords, little-endian (20_memory.md R30). -/
def dwords : List Elem → List Byte
  | [] => []
  | x :: xs => disp32Bytes x ++ dwords xs

/-- The default start state of 95_test_vectors.md, at rip = 0x400000. -/
def start : State := { State.reset with rip := 0x400000 }

/-- `start` with a general register, an opmask register or bytes of memory set. -/
def withGpr (s : State) (r : GReg) (v : Addr) : State := { s with gpr := s.gpr.set r.toNat v r.isLt }
def withK (s : State) (a : KReg) (v : BitVec 64) : State := { s with k := s.k.set a.toNat v a.isLt }

/-- One step with an instruction's bytes placed at `rip`. -/
def stepOn (s : State) (code : List Byte) : Outcome := step (s.loadBytes s.rip.toNat code)

/-- The test that an outcome is a next state with a property. -/
def nextHas (o : Outcome) (p : State → Bool) : Bool :=
  match o with
  | .next t => p t
  | .fault _ => false
  | .refused _ => false

/-- The test that an outcome is a given fault. -/
def faultIs (o : Outcome) (f : Fault) : Bool :=
  match o with
  | .next _ => false
  | .fault g => g == f
  | .refused _ => false

/-- The test that an outcome is a given refusal. -/
def refusalIs (o : Outcome) (r : Refusal) : Bool :=
  match o with
  | .next _ => false
  | .fault _ => false
  | .refused q => q == r

theorem exists_next {o : Outcome} {p : State → Bool} (h : nextHas o p = true) : ∃ t, o = .next t := by
  cases o with
  | next t => exact ⟨t, rfl⟩
  | fault f => cases h
  | refused r => cases h

/-! ### WellFormed refuses an ill-formed term for each of its checks -/

theorem test_wf_zeroing_without_mask : (Instr.vgetexpps512Reg 1 2 0 true).wellFormed = false := by decide
theorem test_wf_base_low_100 : (Instr.vgetexpps128Mem 1 (.base 12 (.disp8 0)) 0 false).wellFormed = false := by decide
theorem test_wf_base_low_101_no_disp : (Instr.vgetexpps256Mem 1 (.base 13 .none) 0 false).wellFormed = false := by decide
theorem test_wf_sib_low_101_no_disp : (Instr.vgetexpps128Bcst 1 (.sib 5 .none .none) 0 false).wellFormed = false := by decide
theorem test_wf_index_4 : (Instr.vgetexpps512Bcst 1 (.sibNoBase (.scaled 4 0) 0) 0 false).wellFormed = false := by decide

/-! ### Decoding: the words of 95_test_vectors.md 4.1, written out, one per form and per addressing shape -/

theorem test_decode_V1 : decode false [0x62, 0xF2, 0x7D, 0x08, 0x42, 0xCA] = .ok (.vgetexpps128Reg 1 2 0 false) := by decide
theorem test_decode_V2 : decode false [0x62, 0xF2, 0x7D, 0x09, 0x42, 0x18] =
    .ok (.vgetexpps128Mem 3 (.base 0 .none) 1 false) := by decide
theorem test_decode_V3 : decode false [0x62, 0xF2, 0x7D, 0x19, 0x42, 0x0B] =
    .ok (.vgetexpps128Bcst 1 (.base 3 .none) 1 false) := by decide
theorem test_decode_V4 : decode false [0x62, 0x32, 0x7D, 0x28, 0x42, 0xC9] = .ok (.vgetexpps256Reg 9 17 0 false) := by decide
theorem test_decode_V5 : decode false [0x62, 0xF2, 0x7D, 0xAA, 0x42, 0x58, 0x02] =
    .ok (.vgetexpps256Mem 3 (.base 0 (.disp8 2)) 2 true) := by decide
theorem test_decode_V6 : decode false [0x62, 0xF2, 0x7D, 0x38, 0x42, 0x52, 0x01] =
    .ok (.vgetexpps256Bcst 2 (.base 2 (.disp8 1)) 0 false) := by decide
theorem test_decode_V8 : decode false [0x62, 0x02, 0x7D, 0xCF, 0x42, 0xF5] = .ok (.vgetexpps512Reg 30 29 7 true) := by decide
theorem test_decode_V12 : decode false [0x62, 0xF2, 0x7D, 0x58, 0x42, 0x72, 0x7F] =
    .ok (.vgetexpps512Bcst 6 (.base 2 (.disp8 0x7F)) 0 false) := by decide
theorem test_decode_V13 : decode false [0x62, 0xF2, 0x7D, 0x58, 0x42, 0xF5] = .ok (.vgetexpps512RegSae 6 5 0 false) := by decide
theorem test_decode_V15 : decode false [0x62, 0x92, 0x7D, 0x48, 0x42, 0x8C, 0xEC, 0x04, 0x01, 0x00, 0x00] =
    .ok (.vgetexpps512Mem 1 (.sib 12 (.scaled 13 3) (.disp32 0x104)) 0 false) := by decide
theorem test_decode_V16 : decode false [0x62, 0xF2, 0x7D, 0x08, 0x42, 0x05, 0x10, 0x00, 0x00, 0x00] =
    .ok (.vgetexpps128Mem 0 (.ripRel 0x10) 0 false) := by decide
theorem test_decode_V17 : decode false [0x62, 0xF2, 0x7D, 0x08, 0x42, 0x04, 0x25, 0x00, 0x10, 0x00, 0x00] =
    .ok (.vgetexpps128Mem 0 (.sibNoBase .none 0x1000) 0 false) := by decide
theorem test_decode_V19 : decode false [0x62, 0xF2, 0x7D, 0x28, 0x42, 0x24, 0x24] =
    .ok (.vgetexpps256Mem 4 (.sib 4 .none .none) 0 false) := by decide
/-- X1, X3, X4, X6, X8, X12, X13. -/
theorem test_reject_ud : ([[0x62, 0xF2, 0x75, 0x48, 0x42, 0xCA], [0x62, 0xF2, 0x7D, 0x40, 0x42, 0xCA],
    [0x62, 0xF2, 0x7D, 0x88, 0x42, 0xCA], [0x62, 0xF2, 0x7D, 0x68, 0x42, 0xCA], [0x62, 0xF2, 0x7D, 0x78, 0x42, 0x08],
    [0x62, 0xF2, 0x75, 0x18, 0x42, 0xF5], [0x62, 0xF2, 0x7D, 0x10, 0x42, 0xF5]] : List (List Byte)).all
    (fun bs => decode false bs == .ud && decode true bs == .ud) = true := by decide
/-- X14 to X27. -/
theorem test_reject_not_vgetexpps : ([[0x62, 0xF2, 0xFD, 0x48, 0x42, 0xCA], [0x62, 0xF2, 0x7C, 0x48, 0x42, 0xCA],
    [0x62, 0xF2, 0x7E, 0x48, 0x42, 0xCA], [0x62, 0xF2, 0x7F, 0x48, 0x42, 0xCA], [0x62, 0xF2, 0x79, 0x48, 0x42, 0xCA],
    [0x62, 0xF1, 0x7D, 0x48, 0x42, 0xCA], [0x62, 0xF3, 0x7D, 0x48, 0x42, 0xCA], [0x62, 0xF6, 0x7D, 0x48, 0x42, 0xCA],
    [0x62, 0xFA, 0x7D, 0x48, 0x42, 0xCA], [0x62, 0xF2, 0x7D, 0x48, 0x43, 0xCA], [0x62, 0xF2, 0x7D, 0x48, 0x41, 0xCA],
    [0xC4, 0xE2, 0x7D, 0x42, 0xCA, 0x00], [0x66, 0x62, 0xF2, 0x7D, 0x48, 0x42, 0xCA], [0x90]] : List (List Byte)).all
    (fun bs => decode false bs == .notVgetexpps && decode true bs == .notVgetexpps) = true := by decide
/-- 30_encoding.md R60: ModRM 44 and 84 (mod = 01 and 10, r/m = 100) fix the length, 8 and 11, before the SIB byte is known. -/
theorem test_length_without_sib : decode false [0x62, 0xF2, 0x7D, 0x48, 0x42, 0x44] = .truncated 8 ∧
    decode false [0x62, 0xF2, 0x7D, 0x48, 0x42, 0x84] = .truncated 11 := by decide
/-- X9, X10, X11. -/
theorem test_reject_sae_other_ll : ([[0x62, 0xF2, 0x7D, 0x18, 0x42, 0xF5], [0x62, 0xF2, 0x7D, 0x38, 0x42, 0xF5],
    [0x62, 0xF2, 0x7D, 0x78, 0x42, 0xF5]] : List (List Byte)).all
    (fun bs => decode false bs == .saeWithOtherLL && decode true bs == .ok (.vgetexpps512RegSae 6 5 0 false)) = true := by decide
/-- V1's word with byte 0 in bits 7..0, and in the order of the table's match column. -/
theorem test_table_word : decodeTableWord 48 0xCA42087DF262 = some (.vgetexpps128Reg 1 2 0 false) ∧
    decodeTableWord 48 0x62F27D0842CA = some (.vgetexpps128Reg 1 2 0 false) := by decide
theorem test_encode_V14 : encode (.vgetexpps512Mem 1 (.sib 12 (.scaled 13 3) (.disp8 4)) 0 false) =
    [0x62, 0x92, 0x7D, 0x48, 0x42, 0x4C, 0xEC, 0x04] := by decide

/-! ### Addresses: the EA column of 95_test_vectors.md 4.1 -/

theorem test_ea_V14 : effectiveAddress 64 8 (withGpr (withGpr start 12 0x20000) 13 0x30) (.sib 12 (.scaled 13 3) (.disp8 4)) =
    0x20280 := by decide
theorem test_ea_V16 : effectiveAddress 16 10 start (.ripRel 0x10) = 0x40001A := by decide
theorem test_ea_V22 : effectiveAddress 64 7 (withGpr start 0 0x10000) (.base 0 (.disp8 0x80)) = 0xE000 := by decide

/-! ### The element function: 95_test_vectors.md section 2 -/

/-- E1, E7, E9, E10, E12, E14: normals. -/
theorem test_element_normal : ([(0x3F800000, 0x00000000), (0x3EFFFFFF, 0xC0000000), (0xC0490FDB, 0x3F800000),
    (0x7F7FFFFF, 0x42FE0000), (0x00800000, 0xC2FC0000), (0x00FFFFFF, 0xC2FC0000)] : List (Elem × Elem)).all
    (fun p => getExpSP p.1 true == { res := p.2, ie := false, de := false }) = true := by decide
/-- E18, E24, E32, E34, E38, E42: denormals with DAZ = 0. -/
theorem test_element_denormal : ([(0x00000001, 0xC3150000), (0x00000003, 0xC3140000), (0x003FFFFF, 0xC3000000),
    (0x00400000, 0xC2FE0000), (0x007FFFFF, 0xC2FE0000), (0x807FFFFF, 0xC2FE0000)] : List (Elem × Elem)).all
    (fun p => getExpSP p.1 false == { res := p.2, ie := false, de := true }) = true := by decide
/-- E16, E17, E19, E43 to E45: zeros, denormals with DAZ = 1, infinities. -/
theorem test_element_zero_inf : ([(0x00000000, 0xFF800000), (0x80000000, 0xFF800000), (0x00000001, 0xFF800000),
    (0x807FFFFF, 0xFF800000), (0x7F800000, 0x7F800000), (0xFF800000, 0x7F800000)] : List (Elem × Elem)).all
    (fun p => getExpSP p.1 true == { res := p.2, ie := false, de := false }) = true := by decide
/-- E46, E48, E50 signalling and E51, E55 quiet. -/
theorem test_element_nan : ([(0x7F800001, 0x7FC00001, true), (0x7FBFFFFF, 0x7FFFFFFF, true), (0xFFBFFFFF, 0xFFFFFFFF, true),
    (0x7FC00000, 0x7FC00000, false), (0xFFFFFFFF, 0xFFFFFFFF, false)] : List (Elem × Elem × Bool)).all
    (fun p => getExpSP p.1 false == { res := p.2.1, ie := p.2.2, de := false }) = true := by decide
/-- Figure 5-14 (L1-1): SAR Src, 23 = 080h; Tmp - Bias = 1; Cvt_PI2PS(01h) = 2^0. -/
theorem test_figure : sar32 0x40000000 23 = 0x00000080 ∧ (0x00000080 : Elem) + 0xFFFFFF81 = 1 ∧
    cvtInt32ToSP 1 = 0x3F800000 ∧ normalPath 0x40000000 = 0x3F800000 := by decide
/-- The last column of E34 and E45. -/
theorem test_printed : (printedConvertExp 0x00400000 false).res = 0xC3BF8000 ∧
    (printedConvertExp 0xFF800000 false).res = 0x43000000 := by decide

/-! ### Steps: 95_test_vectors.md 4.3 and 4.4 -/

/-- T1. -/
theorem test_step_128_reg : nextHas
    (stepOn ((start.writeZmm 1 (BitVec.allOnes 512)).writeZmm 2
      (vec [0x7F800000, 0x00000000, 0x3F000000, 0x41000000, 0x12345678, 0x12345678])) [0x62, 0xF2, 0x7D, 0x08, 0x42, 0xCA])
    (fun t => t.readZmm 1 == vec [0x7F800000, 0xFF800000, 0xBF800000, 0x40400000] && t.mxcsr == 0x1F80 && t.rip == 0x400006)
    = true := by decide +kernel
/-- T2. -/
theorem test_step_128_mem_merging : nextHas
    (stepOn ((withK (withGpr start 0 0x10000) 1 0x0005).loadBytes 0x10000 (dwords (List.replicate 4 0x40000000))
      |>.writeZmm 3 (vec (List.replicate 16 0xAAAAAAAA))) [0x62, 0xF2, 0x7D, 0x09, 0x42, 0x18])
    (fun t => t.readZmm 3 == vec [0x3F800000, 0xAAAAAAAA, 0x3F800000, 0xAAAAAAAA] && t.mxcsr == 0x1F80) = true := by decide +kernel
/-- T3, DAZ = 0 and DAZ = 1. -/
theorem test_step_128_bcst_denormal :
    ([(0x1F80, 0xC3150000, 0x1F82), (0x1FC0, 0xFF800000, 0x1FC0)] : List (BitVec 32 × Elem × BitVec 32)).all (fun p => nextHas
      (stepOn ({ (withK (withGpr start 3 0x13000) 1 0x000F) with mxcsr := p.1 }.loadBytes 0x13000 [1, 0, 0, 0])
        [0x62, 0xF2, 0x7D, 0x19, 0x42, 0x0B])
      (fun t => t.readZmm 1 == vec (List.replicate 4 p.2.1) && t.mxcsr == p.2.2)) = true := by decide +kernel
/-- T4. -/
theorem test_step_256_reg : nextHas
    (stepOn ((start.writeZmm 9 (BitVec.allOnes 512)).writeZmm 17 (vec [0x42C80000, 0xC2C80000, 0x3F800000, 0x3F7FFFEF,
      0x00800000, 0x7F7FFFFF, 0x80000000, 0x7FC00000, 0x7FA00000, 0x7FA00000])) [0x62, 0x32, 0x7D, 0x28, 0x42, 0xC9])
    (fun t => t.readZmm 9 == vec [0x40C00000, 0x40C00000, 0x00000000, 0xBF800000, 0xC2FC0000, 0x42FE0000, 0xFF800000, 0x7FC00000]
      && t.mxcsr == 0x1F80) = true := by decide +kernel
/-- T5: misaligned, masked-off SNaN and denormal. -/
theorem test_step_256_mem_zeroing : nextHas
    (stepOn ((withK (withGpr start 0 0x10001) 2 0x000F).loadBytes 0x10041 (dwords [0x40000000, 0x40800000, 0x3E800000, 0xC1800000,
      0x7FA00000, 0x00000001, 0x40C00000, 0x41100000])) [0x62, 0xF2, 0x7D, 0xAA, 0x42, 0x58, 0x02])
    (fun t => t.readZmm 3 == vec [0x3F800000, 0x40000000, 0xC0000000, 0x40800000] && t.mxcsr == 0x1F80 && t.rip == 0x400007)
    = true := by decide +kernel
/-- T6. -/
theorem test_step_256_bcst_snan : nextHas
    (stepOn ((withGpr start 2 0x12000).loadBytes 0x12004 [0x00, 0x00, 0xA0, 0x7F]) [0x62, 0xF2, 0x7D, 0x38, 0x42, 0x52, 0x01])
    (fun t => t.readZmm 2 == vec (List.replicate 8 0x7FE00000) && t.mxcsr == 0x1F81) = true := by decide +kernel
/-- T7, its first and last elements. -/
theorem test_step_512_reg : nextHas
    (stepOn (start.writeZmm 5 (vec ([0x3B800000] ++ List.replicate 14 0x3F800000 ++ [0x43000000])))
      [0x62, 0xF2, 0x7D, 0x48, 0x42, 0xF5])
    (fun t => t.readZmm 6 == vec ([0xC1000000] ++ List.replicate 14 0x00000000 ++ [0x40E00000])) = true := by decide +kernel
/-- T11: source and destination the same, and T12: an all-zero mask still zeroes above VL. -/
theorem test_step_same_register : nextHas (stepOn (start.writeZmm 7 (vec (List.replicate 16 0x44800000)))
      [0x62, 0xF2, 0x7D, 0x48, 0x42, 0xFF]) (fun t => t.readZmm 7 == vec (List.replicate 16 0x41200000)) = true ∧
    nextHas (stepOn (withK (start.writeZmm 1 (BitVec.allOnes 512)) 1 0xFFF0) [0x62, 0xF2, 0x7D, 0x09, 0x42, 0xC9])
      (fun t => t.readZmm 1 == vec (List.replicate 4 0xFFFFFFFF)) = true := by decide +kernel
/-- T8, its first and last elements. -/
theorem test_step_512_mem_denormals : nextHas
    (stepOn ((withGpr start 2 0x12000).loadBytes 0x13FC0 (dwords ([0x00000001] ++ List.replicate 14 0x40000000 ++ [0x00008000])))
      [0x62, 0xF2, 0x7D, 0x48, 0x42, 0x72, 0x7F])
    (fun t => t.readZmm 6 == vec ([0xC3150000] ++ List.replicate 14 0x3F800000 ++ [0xC3060000]) && t.mxcsr == 0x1F82)
    = true := by decide +kernel
/-- T9. -/
theorem test_step_512_bcst_merging : nextHas
    (stepOn ((withK (withGpr start 2 0x12000) 5 0x8001).loadBytes 0x121FC [0x00, 0x24, 0x74, 0x49]
      |>.writeZmm 6 (vec (List.replicate 16 0x22222222))) [0x62, 0xF2, 0x7D, 0x5D, 0x42, 0x72, 0x7F])
    (fun t => t.readZmm 6 == vec ([0x41980000] ++ List.replicate 14 0x22222222 ++ [0x41980000])) = true := by decide +kernel

/-- The start of T10 and T14 with a given MXCSR. -/
def startT10 (mx : BitVec 32) : State :=
  { start with mxcsr := mx }.writeZmm 5 (vec ([0x7F800001, 0x00000001] ++ List.replicate 14 0x40000000))

/-- T10. -/
theorem test_step_512_sae : nextHas (stepOn (startT10 0) [0x62, 0xF2, 0x7D, 0x58, 0x42, 0xF5])
    (fun t => t.readZmm 6 == vec ([0x7FC00001, 0xC3150000] ++ List.replicate 14 0x3F800000) && t.mxcsr == 0) = true := by
  decide +kernel
/-- T14. -/
theorem test_step_xm : ([0x000, 0x080, 0x100] : List (BitVec 32)).all (fun mx =>
      faultIs (stepOn (startT10 mx) [0x62, 0xF2, 0x7D, 0x48, 0x42, 0xF5]) (.xm 0x400000)) = true ∧
    nextHas (stepOn (startT10 0x180) [0x62, 0xF2, 0x7D, 0x48, 0x42, 0xF5]) (fun t => t.mxcsr == 0x183) = true := by decide +kernel
/-- T13, T15, T16. -/
theorem test_step_stops : faultIs (stepOn start [0x62, 0xF2, 0x75, 0x48, 0x42, 0xCA]) (.ud 0x400000) = true ∧
    faultIs (stepOn ((withGpr start 0 0x10000).loadBytes 0x10000 (List.replicate 60 0)) [0x62, 0xF2, 0x7D, 0xC9, 0x42, 0x10])
      (.memFault 0x400000 0x10000 64) = true ∧
    refusalIs (stepOn start [0x90]) .notVgetexpps = true := by decide +kernel
/-- The host's word placed at the fetch address runs as the first instruction after reset (V1 on a zero source: -INF). -/
theorem test_with_fetch_word : nextHas (step (State.reset.withFetchWord 48 0xCA42087DF262))
    (fun t => t.readZmm 1 == vec (List.replicate 4 0xFF800000) && t.rip == 6) = true := by decide +kernel

/-! ### Assembler text: 30_encoding.md R64 -/

theorem test_asm_reg : asmText (.vgetexpps512Reg 1 3 2 false) = "vgetexpps zmm1" ++ braced "k2" ++ ", zmm3" := by decide +kernel
theorem test_asm_bcst : asmText (.vgetexpps128Bcst 1 (.base 3 .none) 1 false) =
    "vgetexpps xmm1" ++ braced "k1" ++ ", dword ptr [rbx]" ++ braced "1to4" := by decide +kernel
theorem test_asm_mem : asmText (.vgetexpps256Mem 1 (.base 0 (.disp8 2)) 0 false) = "vgetexpps ymm1, ymmword ptr [rax+64]" := by
  decide +kernel
theorem test_att : attText (.vgetexpps128Bcst 1 (.base 3 .none) 1 false) =
      "vgetexpps (%rbx)" ++ braced "1to4" ++ ", %xmm1" ++ braced "%k1" ∧
    attText (.vgetexpps512RegSae 1 2 0 false) = "vgetexpps " ++ braced "sae" ++ ", %zmm2, %zmm1" := by decide +kernel
/-- 70_reset_and_hazards.md R121. -/
theorem test_cpuid : cpuid7Ebx Config.default = 0x80010000 := by decide
theorem test_intrinsics : intrinsics.length = 12 := by decide

/-! ### Witnesses: for each obligation with hypotheses, states and operands that meet them together -/

/-- Memory operand [rax] with 64 admitted bytes at rax = 0x10000, writemask k1 = 0x0005, everything masked. -/
def memState : State := (withK (withGpr start 0 0x10000) 1 0x0005).loadBytes 0x10000 (dwords (List.replicate 16 0x3F800000))

/-- The same with a code at `rip`. -/
def codeAt (rip : Addr) (bs : List Byte) : State := ({ memState with rip := rip }).loadBytes rip.toNat bs

theorem operandAdmitted_of {i : Instr} {s : State} {ea : Addr} {n : Nat} (h : operandRange i s = some (ea, n))
    (ha : Admit s.mem ea n) : OperandAdmitted i s := fun ea' n' h' => by rw [h] at h'; cases h'; exact ha

theorem not_unmasked {i : Instr} {s : State} (h1 : mxIM s.mxcsr = true) (h2 : mxDM s.mxcsr = true) : ¬ UnmaskedRequest i s := by
  rintro (⟨_, h⟩ | ⟨_, h⟩)
  · rw [h1] at h; cases h
  · rw [h2] at h; cases h

theorem fetch_of {s : State} {i : Instr} (h : (s.fetchDecode == .ok i) = true) : s.fetchDecode = .ok i := by simpa using h

theorem witness_DecodeEncode : (Instr.vgetexpps512Mem 31 (.sib 13 (.scaled 12 3) (.disp8 0x80)) 7 true).wellFormed = true := by decide
theorem witness_DecodeAnswersWellFormed : decode true [0x62, 0xF2, 0x7D, 0x78, 0x42, 0xF5, 0x90] =
    .ok (.vgetexpps512RegSae 6 5 0 false) := by decide
theorem witness_EncodeDecodeRegisterForms :
    decode false [0x62, 0x02, 0x7D, 0xCF, 0x42, 0xF5] = .ok (regForm .v512 30 29 7 true) ∧
    decode false [0x62, 0xF2, 0x7D, 0x58, 0x42, 0xF5] = .ok (.vgetexpps512RegSae 6 5 0 false) := by decide
theorem witness_LengthOfDecoded :
    decode false (0x62 :: 0xF2 :: 0x7D :: 0x08 :: 0x42 :: 0xCA :: []) = .ok (.vgetexpps128Reg 1 2 0 false) ∧
    decode false (0x62 :: 0xF2 :: 0x7D :: 0x08 :: 0x42 :: 0x04 :: [0x25, 0x00, 0x10, 0x00, 0x00]) =
      .ok (.vgetexpps128Mem 0 (.sibNoBase .none 0x1000) 0 false) := by decide
theorem witness_EncodingMatchesItsRowOnly : (Instr.vgetexpps256Bcst 2 (.base 2 (.disp8 1)) 0 false).wellFormed = true ∧
    encode (.vgetexpps256Bcst 2 (.base 2 (.disp8 1)) 0 false) = 0x62 :: 0xF2 :: 0x7D :: 0x38 :: 0x42 :: 0x52 :: [0x01] := by decide

theorem witness_StepRunsDecoded : (codeAt 0x400000 [0x62, 0xF2, 0x7D, 0x48, 0x42, 0xF5]).mode = .bits64 ∧
    (codeAt 0x400000 [0x62, 0xF2, 0x7D, 0x48, 0x42, 0xF5]).fetchDecode = .ok (.vgetexpps512Reg 6 5 0 false) :=
  ⟨rfl, by decide +kernel⟩
/-- The last six bytes of the address space. -/
theorem witness_StepRunsTheBytesAtRip : ∃ (s : State) (i : Instr), s.mode = .bits64 ∧ i.wellFormed = true ∧
    s.rip.toNat + i.length = 2 ^ 64 ∧ ∀ n < i.length, s.mem.read (s.rip.toNat + n) = (encode i)[n]? :=
  ⟨codeAt 0xFFFFFFFFFFFFFFFA [0x62, 0xF2, 0x7D, 0x48, 0x42, 0xF5], .vgetexpps512Reg 6 5 0 false, rfl, by decide,
    by decide +kernel, by decide +kernel⟩
theorem witness_ReservedVvvvRaisesUD :
    (codeAt 0x400000 [0x62, 0xF2, 0x05, 0x48, 0x42, 0xCA]).codeBytes = 0x62 :: 0xF2 :: 0x05 :: 0x48 :: 0x42 :: 0xCA :: [] ∧
    (0xF2 : Byte).extractLsb' 0 4 = 0b0010#4 ∧ (0x05 : Byte).getLsbD 7 = false ∧ (0x05 : Byte).getLsbD 2 = true ∧
    (0x05 : Byte).extractLsb' 0 2 = 0b01#2 ∧ tailBytes 0xCA 0 ≤ 0 ∧ (0x05 : Byte).extractLsb' 3 4 ≠ 0b1111#4 := by decide +kernel
/-- V̄' = 0; z without a mask; L'L = 11 with memory and with a register. -/
theorem witness_OtherReservedSettingsRaiseUD :
    (codeAt 0x400000 [0x62, 0xF2, 0x7D, 0x40, 0x42, 0xCA]).codeBytes = 0x62 :: 0xF2 :: 0x7D :: 0x40 :: 0x42 :: 0xCA :: [] ∧
    (0x40 : Byte).getLsbD 3 = false ∧
    (codeAt 0x400000 [0x62, 0xF2, 0x7D, 0x88, 0x42, 0xCA]).codeBytes = 0x62 :: 0xF2 :: 0x7D :: 0x88 :: 0x42 :: 0xCA :: [] ∧
    ((0x88 : Byte).getLsbD 7 = true ∧ (0x88 : Byte).extractLsb' 0 3 = 0#3) ∧
    (codeAt 0x400000 [0x62, 0xF2, 0x7D, 0x78, 0x42, 0x08]).codeBytes = 0x62 :: 0xF2 :: 0x7D :: 0x78 :: 0x42 :: 0x08 :: [] ∧
    ((0x78 : Byte).extractLsb' 5 2 = 3#2 ∧ ¬ (bits76 0x08 = 3#2 ∧ (0x78 : Byte).getLsbD 4 = true)) ∧ tailBytes 0x08 0 ≤ 0 ∧
    ((0x68 : Byte).extractLsb' 5 2 = 3#2 ∧ ¬ (bits76 0xCA = 3#2 ∧ (0x68 : Byte).getLsbD 4 = true)) := by decide +kernel
/-- L'L = 00 and 11, SAE_IGNORES_LL false and true. -/
theorem witness_SaeWithOtherLL :
    (codeAt 0x400000 [0x62, 0xF2, 0x7D, 0x18, 0x42, 0xF5]).codeBytes = 0x62 :: 0xF2 :: 0x7D :: 0x18 :: 0x42 :: 0xF5 :: [] ∧
    bits76 0xF5 = 3#2 ∧ (0x18 : Byte).getLsbD 4 = true ∧ (0x18 : Byte).extractLsb' 5 2 ≠ 2#2 ∧ (0x18 : Byte).getLsbD 3 = true ∧
    ((0x18 : Byte).getLsbD 7 = true → (0x18 : Byte).extractLsb' 0 3 ≠ 0#3) ∧ memState.cfg.saeIgnoresLL = false ∧
    ({ memState with cfg := { Config.default with saeIgnoresLL := true } } : State).cfg.saeIgnoresLL = true ∧
    (0x78 : Byte).extractLsb' 5 2 ≠ 2#2 := by decide +kernel
theorem witness_OtherBytesRefused : (codeAt 0x400000 [0x90]).codeBytes = 0x90 :: [] ∧
    (codeAt 0x400000 [0x62, 0xF2, 0xF5, 0x48, 0x42, 0xCA]).codeBytes = 0x62 :: 0xF2 :: 0xF5 :: 0x48 :: 0x42 :: 0xCA :: [] ∧
    (0xF5 : Byte).getLsbD 7 = true := by decide +kernel
theorem witness_FetchOutsideMemoryFaults : start.mem.read start.rip.toNat = none ∧
    ((codeAt 0x400000 [0x62, 0xF2, 0x7D, 0x48, 0x42]).mem.read 0x400000 = some 0x62 ∧
      (codeAt 0x400000 [0x62, 0xF2, 0x7D, 0x48, 0x42]).mem.read (0x400000 + 5) = none) ∧
    ((codeAt 0x400000 [0x62, 0xF2, 0x7D, 0x48, 0x42, 0x04]).codeBytes = 0x62 :: 0xF2 :: 0x7D :: 0x48 :: 0x42 :: 0x04 :: [] ∧
      0 < tailBytes 0x04 0 ∧ tailBytes 0x04 0 = 1) ∧
    ((codeAt 0x400000 [0x62, 0xF2, 0x7D, 0x48, 0x42, 0x44]).codeBytes = 0x62 :: 0xF2 :: 0x7D :: 0x48 :: 0x42 :: 0x44 :: [] ∧
      0 < tailBytes 0x44 0 ∧ tailBytes 0x44 0 = 2) ∧
    ((codeAt 0x400000 [0x62, 0xF2, 0x7D, 0x48, 0x42, 0x05, 0, 0, 0]).codeBytes =
        0x62 :: 0xF2 :: 0x7D :: 0x48 :: 0x42 :: 0x05 :: [0, 0, 0] ∧ 3 < tailBytes 0x05 0) := by decide +kernel
/-- The first six bytes cross the top by one byte; the displacement of a ten-byte instruction crosses it by one byte. -/
theorem witness_CodeNeverWraps : ((codeAt 0xFFFFFFFFFFFFFFFB [0x62]).mode = .bits64 ∧
      (codeAt 0xFFFFFFFFFFFFFFFB [0x62]).mem.read 0xFFFFFFFFFFFFFFFB = some 0x62 ∧ 2 ^ 64 < 0xFFFFFFFFFFFFFFFB + 6) ∧
    ((codeAt 0xFFFFFFFFFFFFFFF7 [0x62, 0xF2, 0x7D, 0x48, 0x42, 0x05, 0, 0, 0]).codeBytes =
        0x62 :: 0xF2 :: 0x7D :: 0x48 :: 0x42 :: 0x05 :: [0, 0, 0] ∧ 2 ^ 64 < 0xFFFFFFFFFFFFFFF7 + 6 + tailBytes 0x05 0) := by
  decide +kernel
theorem witness_OtherModesRefused : ({ start with mode := .compatibility } : State).mode ≠ .bits64 := by decide

theorem witness_GetExpIsFloorLog2 : isNormal 0x00800000 = true ∧ isNormal 0xFF7FFFFF = true ∧ isDenormal 0x80000001 = true ∧
    isDenormal 0x007FFFFF = true := by decide
theorem witness_NaNSource : isSNaN 0x7F800001 = true ∧ isSNaN 0xFFBFFFFF = true ∧ isQNaN 0x7FC00000 = true := by decide
theorem witness_InfiniteSource : isInf 0x7F800000 = true ∧ isInf 0xFF800000 = true := by decide
theorem witness_ZeroSource : isZero 0x80000000 = true ∧ isDenormal 0x00000001 = true ∧ isDenormal 0x807FFFFF = true := by decide
theorem witness_DenormalSource : isDenormal 0x00000001 = true ∧ isDenormal 0x807FFFFF = true := by decide
theorem witness_NormalSource : isNormal 0x00800000 = true ∧ isNormal 0xFF7FFFFF = true := by decide
/-- p = 22 and p = 0. -/
theorem witness_NormalizeLoop : ((0x400000 : BitVec 23).getLsbD 22 = true ∧ ∀ b, 22 < b → (0x400000 : BitVec 23).getLsbD b = false) ∧
    ((1 : BitVec 23).getLsbD 0 = true ∧ ∀ b, 0 < b → (1 : BitVec 23).getLsbD b = false) :=
  ⟨⟨by decide, fun b h => BitVec.getLsbD_of_ge _ _ (by omega)⟩, by decide, fun b h => by
    rw [show (1 : BitVec 23) = 1#23 from rfl, BitVec.getLsbD_one]; simp; omega⟩
theorem witness_ConversionExact : (-149 : Int) ≤ -149 ∧ (127 : Int) ≤ 127 := by decide
theorem witness_PrintedPseudocode : (isDenormal 0x00400000 = true ∧ (fraction 0x00400000).getLsbD 22 = true) ∧
    (¬ (fraction 0x003FFFFF).getLsbD 22 = true ∧ (0x003FFFFF : Elem) ≠ 0xFF800000) := by decide

theorem enabled_of {i : Instr} {s : State} (h1 : s.osEnabled = true) (h2 : s.cfg.hasAVX512F = true)
    (h3 : s.cfg.hasAVX512VL = true) : Enabled i s := ⟨h1, h2, .inr h3⟩

theorem memState_admits : Admit memState.mem 0x10000 64 := by
  refine ⟨by decide, ?_⟩; decide +kernel

theorem witness_RegisterFormsComplete : Enabled (regForm .v128 1 2 1 true) memState ∧
    ¬ UnmaskedRequest (regForm .v128 1 2 1 true) memState :=
  ⟨enabled_of rfl rfl rfl, not_unmasked (by decide +kernel) (by decide +kernel)⟩
theorem witness_FullMemoryFormsComplete : Enabled (fullForm .v512 1 (.base 0 .none) 1 false) memState ∧
    OperandAdmitted (fullForm .v512 1 (.base 0 .none) 1 false) memState ∧
    ¬ UnmaskedRequest (fullForm .v512 1 (.base 0 .none) 1 false) memState :=
  ⟨enabled_of rfl rfl rfl,
    operandAdmitted_of (ea := 0x10000) (n := 64) (by decide +kernel) memState_admits,
    not_unmasked (by decide +kernel) (by decide +kernel)⟩
theorem witness_BroadcastFormsComplete : Enabled (bcstForm .v256 1 (.base 0 .none) 0 false) memState ∧
    OperandAdmitted (bcstForm .v256 1 (.base 0 .none) 0 false) memState ∧
    ¬ UnmaskedRequest (bcstForm .v256 1 (.base 0 .none) 0 false) memState :=
  ⟨enabled_of rfl rfl rfl,
    operandAdmitted_of (ea := 0x10000) (n := 4) (by decide +kernel)
      ⟨by decide, fun k hk => memState_admits.2 k (by omega)⟩,
    not_unmasked (by decide +kernel) (by decide +kernel)⟩
/-- Enabled without AVX512VL, and with every exception unmasked. -/
theorem witness_SaeFormCompletes :
    Enabled (.vgetexpps512RegSae 6 5 0 false) { startT10 0 with cfg := { Config.default with hasAVX512VL := false } } :=
  ⟨rfl, rfl, .inl rfl⟩

/-- A source register with a signalling NaN and a denormal, every exception unmasked. -/
theorem startT10_requests : UnmaskedRequest (.vgetexpps512Reg 6 5 0 false) (startT10 0) :=
  .inl ⟨⟨0, by decide, .inl rfl, by decide +kernel⟩, by decide +kernel⟩

theorem not_admit_empty {n : Nat} : ¬ Admit start.mem 0 (n + 1) := fun h => absurd (h.2 0 (by omega)) (by decide)

theorem register_admitted {i : Instr} {s : State} (h : operandRange i s = none) : OperandAdmitted i s :=
  fun _ _ h' => (Option.some_ne_none _ (h'.symm.trans h)).elim

theorem witness_OutcomeOrder :
    ({ start with osEnabled := false } : State).osEnabled = false ∧
    ¬ Enabled (.vgetexpps128Reg 1 2 0 false) { start with cfg := { Config.default with hasAVX512VL := false } } ∧
    (Enabled (.vgetexpps128Mem 1 (.base 0 .none) 0 false) start ∧
      operandRange (.vgetexpps128Mem 1 (.base 0 .none) 0 false) start = some (0, 16) ∧ ¬ Admit start.mem 0 16) ∧
    (Enabled (.vgetexpps512Reg 6 5 0 false) (startT10 0) ∧ OperandAdmitted (.vgetexpps512Reg 6 5 0 false) (startT10 0) ∧
      UnmaskedRequest (.vgetexpps512Reg 6 5 0 false) (startT10 0)) ∧
    (Enabled (.vgetexpps512RegSae 6 5 0 false) (startT10 0) ∧ OperandAdmitted (.vgetexpps512RegSae 6 5 0 false) (startT10 0)) :=
  ⟨rfl, fun h => absurd h.2.2 (by decide +kernel), ⟨enabled_of rfl rfl rfl, by decide +kernel, not_admit_empty⟩,
    ⟨enabled_of rfl rfl rfl, register_admitted rfl, startT10_requests⟩, enabled_of rfl rfl rfl, register_admitted rfl⟩
theorem witness_MissingFeatureRaisesUD : start.osEnabled = true ∧ start.cfg.hasAVX512F = true ∧
    ({ Config.default with hasAVX512F := false } : Config).hasAVX512F = false ∧
    ({ Config.default with hasAVX512VL := false } : Config).hasAVX512VL = false ∧
    (Instr.vgetexpps256Reg 1 2 0 false).vecLen ≠ .v512 ∧ (Instr.vgetexpps512RegSae 1 2 0 false).vecLen = .v512 := by decide
/-- Only the last 16 bytes, those of elements 12 to 15, are not admitted, and k1 = 0x0005 selects elements 0 and 2; an operand nothing of which is
admitted; and one that is admitted whole. -/
theorem witness_MemFaultWhateverTheMask :
    (Enabled (.vgetexpps512Mem 2 (.base 0 (.disp32 0x10)) 1 true) memState ∧
      operandRange (.vgetexpps512Mem 2 (.base 0 (.disp32 0x10)) 1 true) memState = some (0x10010, 64) ∧
      memState.mem.read (0x10010 + 47) = some 0x3F ∧ memState.mem.read (0x10010 + 48) = none ∧
      Computed (.vgetexpps512Mem 2 (.base 0 (.disp32 0x10)) 1 true) memState 2 ∧
      ¬ Computed (.vgetexpps512Mem 2 (.base 0 (.disp32 0x10)) 1 true) memState 12) ∧
    (Enabled (.vgetexpps512Mem 2 (.base 0 .none) 1 true) start ∧
      operandRange (.vgetexpps512Mem 2 (.base 0 .none) 1 true) start = some (0, 64) ∧ ¬ Admit start.mem 0 64) ∧
    (Enabled (.vgetexpps512Mem 2 (.base 0 .none) 1 true) memState ∧
      operandRange (.vgetexpps512Mem 2 (.base 0 .none) 1 true) memState = some (0x10000, 64) ∧ Admit memState.mem 0x10000 64) := by
  refine ⟨⟨enabled_of rfl rfl rfl, ?_, ?_, ?_, ?_, ?_⟩, ⟨enabled_of rfl rfl rfl, by decide +kernel, not_admit_empty⟩,
    enabled_of rfl rfl rfl, by decide +kernel, memState_admits⟩ <;> (try unfold Computed) <;> decide +kernel
theorem witness_MaskedNeverRaisesXM : MaskedExceptions start ∧
    (¬ RequestsIE (.vgetexpps512Reg 6 5 0 false) { start with mxcsr := 0 } ∧
      ¬ RequestsDE (.vgetexpps512Reg 6 5 0 false) { start with mxcsr := 0 }) := by
  refine ⟨⟨by decide +kernel, by decide +kernel⟩, ?_, ?_⟩
  · unfold RequestsIE Computed; decide +kernel
  · unfold RequestsDE Computed; decide +kernel

/-- The premise `exec i s = .next t` of the frame, flag, mask and upper-bit statements: it is met by every form of instruction. -/
theorem witness_exec_next : (∃ t, exec (.vgetexpps128Reg 1 2 1 true) memState = .next t) ∧
    (∃ t, exec (.vgetexpps512Mem 1 (.base 0 .none) 1 false) memState = .next t) ∧
    (∃ t, exec (.vgetexpps256Bcst 1 (.base 0 .none) 0 false) memState = .next t) ∧
    (∃ t, exec (.vgetexpps512Reg 1 2 0 false) memState = .next t) ∧
    (∃ t, exec (.vgetexpps512RegSae 6 5 0 false) (startT10 0) = .next t) :=
  ⟨exists_next (p := fun _ => true) (by decide +kernel), exists_next (p := fun _ => true) (by decide +kernel),
    exists_next (p := fun _ => true) (by decide +kernel), exists_next (p := fun _ => true) (by decide +kernel),
    exists_next (p := fun _ => true) (by decide +kernel)⟩
/-- ZeroAboveVL at the first bit above a 128-bit form; MaskedElements at element 1, masked off by k1 = 0x0005, and with no element computed;
FrameOfEveryForm, FlagsSticky and SaeSameResults share `witness_exec_next`. -/
theorem witness_MaskedElements : (∃ t, exec (.vgetexpps128Reg 1 2 1 true) memState = .next t) ∧
    ¬ Computed (.vgetexpps128Reg 1 2 1 true) memState 1 ∧ Computed (.vgetexpps128Reg 1 2 1 true) memState 0 ∧
    (∃ t, exec (.vgetexpps128Reg 1 2 2 false) memState = .next t) ∧
    ∀ j < 4, ¬ Computed (.vgetexpps128Reg 1 2 2 false) memState j := by
  refine ⟨exists_next (p := fun _ => true) (by decide +kernel), ?_, ?_, exists_next (p := fun _ => true) (by decide +kernel), ?_⟩ <;>
    (unfold Computed; decide +kernel)
/-- The two flag clauses of MaskedElements under a mixed mask, k1 = 2: the denormal of element 1 is computed and sets DE, the signalling NaN of
element 0 is not and leaves IE clear. -/
theorem witness_MaskedElements_flags : nextHas (exec (.vgetexpps512Reg 6 5 1 false) (withK (startT10 0x1F80) 1 2))
      (fun t => mxDE t.mxcsr && !mxIE t.mxcsr) = true ∧
    nextHas (exec (.vgetexpps512Reg 6 5 1 false) (withK (startT10 0x1F80) 1 1)) (fun t => mxIE t.mxcsr && !mxDE t.mxcsr) = true := by
  decide +kernel
theorem witness_ZeroAboveVL : (∃ t, exec (.vgetexpps128Reg 1 2 1 true) memState = .next t) ∧
    32 * kl (Instr.vgetexpps128Reg 1 2 1 true).vecLen ≤ 128 :=
  ⟨exists_next (p := fun _ => true) (by decide +kernel), by decide⟩
theorem witness_SourceIsDestination : (∃ t, exec (regForm .v512 7 7 1 false) memState = .next t) ∧
    Computed (regForm .v512 7 7 1 false) memState 0 := by
  refine ⟨exists_next (p := fun _ => true) (by decide +kernel), ?_⟩
  unfold Computed; decide +kernel
/-- All bits above 128 differ, and elements 1 and 3 too, which k1 = 0x0005 does not select. -/
theorem witness_UncomputedSourceIrrelevant : (2 : VReg) ≠ 1 ∧
    ∀ j < kl (regForm .v128 1 2 1 false).vecLen, Computed (regForm .v128 1 2 1 false) memState j →
      (BitVec.allOnes 512 ^^^ vec [0xFFFFFFFF, 0, 0xFFFFFFFF, 0]).extractLsb' (32 * j) 32 =
        (memState.readZmm 2).extractLsb' (32 * j) 32 := by
  refine ⟨by decide, ?_⟩
  unfold Computed; decide +kernel
/-- k1 = 0xFFF5 against 0x0005, with K_WIDTH 16 against 64. -/
theorem witness_OnlyLowMaskBitsMatter : (Instr.vgetexpps128Reg 1 2 1 false).maskReg ≠ 0 ∧
    ∀ j < kl (Instr.vgetexpps128Reg 1 2 1 false).vecLen,
      ((Vector.replicate 8 (0xFFF5 : BitVec 64))[(1 : KReg).toNat]'(1 : KReg).isLt).getLsbD j =
        (memState.k[(1 : KReg).toNat]'(1 : KReg).isLt).getLsbD j := by decide +kernel

theorem witness_LittleEndianElements : ∃ bs, memState.mem.readRange 0x10000 64 = some bs :=
  readRange_isSome_iff.2 memState_admits
/-- The last element of the 512-bit operand. -/
theorem witness_BroadcastAgreesWithFullVector : 15 < kl .v512 ∧ ∃ S, sourceValue .v512 memState (.mem 0x10000 false) = .ok S := by
  obtain ⟨bs, h⟩ := readRange_isSome_iff.2 memState_admits
  exact ⟨by decide, _, sourceValue_some h⟩
theorem witness_CanonicalMemoryExtensional : memState.mem.wf = true ∧ Memory.wf [] = true := by decide +kernel

/-- StepNeverStores, StepFrame and StepKeepsInv: a step that completes from a state with the invariant. -/
theorem witness_step_next : Inv (codeAt 0x400000 [0x62, 0xF2, 0x7D, 0x08, 0x42, 0x10]) ∧
    ∃ t, step (codeAt 0x400000 [0x62, 0xF2, 0x7D, 0x08, 0x42, 0x10]) = .next t := by
  refine ⟨⟨by decide +kernel, by decide +kernel, ?_, rfl, rfl⟩, exists_next (p := fun _ => true) (by decide +kernel)⟩
  unfold OpmasksFit; decide +kernel
theorem witness_FaultCarriesRip : step start = .fault (.memFault 0x400000 0x400000 1) := rfl

end Sys2Proof.Tests
end

section
/-! PROOFS of the statements of 00_scope.md. -/

namespace Sys2Proof.Proofs

open Sys2Proof.Machine

/-- Settles O15: the mode is tested before any fetch (decision D33), which is the law `step_other_mode`. -/
theorem otherModesRefused : Obligations.OtherModesRefused := by
  unfold Obligations.OtherModesRefused
  intro s hmode
  exact step_other_mode hmode

end Sys2Proof.Proofs
end

section
/-! PROOFS of the statements of 10_state.md, and the laws they rest on. -/

namespace Sys2Proof.Proofs

open Sys2Proof.Machine

/-! ### The decoder: what it accepts is well formed and lies within the bytes given (30_encoding.md R60, R62) -/

/-- The bytes of a ModRM:r/m operand after the ModRM byte: none for a register. -/
def rmLength : RM → Nat
  | .reg _ => 0
  | .mem m => m.length

/-- A ModRM:r/m operand that has an encoding: every register has one. -/
def rmWellFormed : RM → Bool
  | .reg _ => true
  | .mem m => m.wellFormed

theorem length_eq (i : Instr) : i.length = 6 + rmLength i.fields.rm := by cases i <;> rfl

theorem wellFormed_eq (i : Instr) :
    i.wellFormed = (rmWellFormed i.fields.rm && maskWellFormed i.maskReg i.zeroing) := by cases i <;> rfl

theorem length_bounds (i : Instr) : 6 ≤ i.length ∧ i.length ≤ 11 := by
  rw [length_eq]
  cases i.fields.rm with
  | reg r => simp [rmLength]
  | mem m =>
    have := Laws.EncodedLength.memOp_length_le m
    simp only [rmLength]
    omega

theorem except_map_ok {α β : Type} {f : α → β} {e : Except Nat α} {y : β} (h : e.map f = .ok y) :
    ∃ x, e = .ok x ∧ y = f x := by
  cases e with
  | error n => cases h
  | ok x => cases h; exact ⟨x, rfl, rfl⟩

theorem takeDisp8_ok {need : Nat} {bs : List Byte} {d : BitVec 8} (h : takeDisp8 need bs = .ok d) : 1 ≤ bs.length := by
  rcases Nat.lt_or_ge bs.length 1 with hs | hs
  · rw [takeDisp8_short hs] at h
    cases h
  · exact hs

theorem takeDisp32_ok {need : Nat} {bs : List Byte} {d : BitVec 32} (h : takeDisp32 need bs = .ok d) : 4 ≤ bs.length := by
  rcases Nat.lt_or_ge bs.length 4 with hs | hs
  · rw [takeDisp32_short hs] at h
    cases h
  · exact hs

@[simp] theorem gregNum_low (bar3 : Bool) (low : BitVec 3) : (gregNum bar3 low).extractLsb' 0 3 = low := by
  revert low; cases bar3 <;> decide

@[simp] theorem decodeIndex_wellFormed (xbar : Bool) (sib : Byte) : (decodeIndex xbar sib).wellFormed = true := by
  unfold decodeIndex
  split
  · rfl
  · simpa [Index.wellFormed] using ‹_›

theorem decodeSib_ok {x b : Bool} {mod : BitVec 2} {rest : List Byte} {m : MemOp} (h : decodeSib x b mod rest = .ok m) :
    m.wellFormed = true ∧ m.length ≤ rest.length := by
  cases rest with
  | nil => cases h
  | cons sib rest =>
    simp only [decodeSib] at h
    split at h
    · split at h
      · obtain ⟨d, hd, rfl⟩ := except_map_ok h
        exact ⟨decodeIndex_wellFormed x sib, Nat.succ_le_succ (takeDisp32_ok hd)⟩
      · rename_i hbase
        cases h
        refine ⟨?_, Nat.succ_le_succ (Nat.zero_le _)⟩
        rw [MemOp.wellFormed, decodeIndex_wellFormed, gregNum_low, Bool.true_and, bne_iff_ne]
        exact hbase
    · split at h
      · obtain ⟨d, hd, rfl⟩ := except_map_ok h
        exact ⟨decodeIndex_wellFormed x sib, Nat.succ_le_succ (takeDisp8_ok hd)⟩
      · obtain ⟨d, hd, rfl⟩ := except_map_ok h
        exact ⟨decodeIndex_wellFormed x sib, Nat.succ_le_succ (takeDisp32_ok hd)⟩

theorem decodeNoSib_ok {b : Bool} {mod : BitVec 2} {rm : BitVec 3} {rest : List Byte} {m : MemOp} (hrm : rm ≠ 4)
    (h : decodeNoSib b mod rm rest = .ok m) : m.wellFormed = true ∧ m.length ≤ rest.length := by
  have hlow : ((gregNum b rm).extractLsb' 0 3 != 4#3) = true := by rw [gregNum_low, bne_iff_ne]; exact hrm
  unfold decodeNoSib at h
  split at h
  · split at h
    · obtain ⟨d, hd, rfl⟩ := except_map_ok h
      exact ⟨rfl, takeDisp32_ok hd⟩
    · rename_i hrip
      cases h
      refine ⟨?_, Nat.zero_le _⟩
      rw [MemOp.wellFormed, hlow, gregNum_low, Bool.true_and, bne_iff_ne]
      exact hrip
  · split at h
    · obtain ⟨d, hd, rfl⟩ := except_map_ok h
      exact ⟨hlow, takeDisp8_ok hd⟩
    · obtain ⟨d, hd, rfl⟩ := except_map_ok h
      exact ⟨hlow, takeDisp32_ok hd⟩

theorem decodeRM_ok {p0 m : Byte} {rest : List Byte} {rm : RM} (h : decodeRM p0 m rest = .ok rm) :
    rmWellFormed rm = true ∧ rmLength rm ≤ rest.length := by
  unfold decodeRM at h
  split at h
  · cases h
    exact ⟨rfl, Nat.zero_le _⟩
  · split at h
    · obtain ⟨op, hop, rfl⟩ := except_map_ok h
      exact decodeSib_ok hop
    · rename_i hsib
      obtain ⟨op, hop, rfl⟩ := except_map_ok h
      exact decodeNoSib_ok hsib hop

/-- The form selected has the operand and the mask setting of the fields it is selected by. -/
theorem selectForm_ok {sae : Bool} {f : Fields} {i : Instr} (h : selectForm sae f = .ok i) :
    i.fields.rm = f.rm ∧ i.maskReg = f.aaa ∧ i.zeroing = f.z := by
  obtain ⟨ll, b, z, aaa, d, rm⟩ := f
  cases rm with
  | reg r =>
    simp only [selectForm, selectReg] at h
    (repeat' split at h) <;> cases h <;> exact ⟨rfl, rfl, rfl⟩
  | mem m =>
    simp only [selectForm, selectMem] at h
    (repeat' split at h) <;> cases h <;> exact ⟨rfl, rfl, rfl⟩

/-- What passes the tests on reserved fields has the operand it was given and a mask setting that is not reserved. -/
theorem decodeReserved_ok {sae : Bool} {p0 p1 p2 m : Byte} {rm : RM} {i : Instr}
    (h : decodeReserved sae p0 p1 p2 m rm = .ok i) :
    i.fields.rm = rm ∧ maskWellFormed i.maskReg i.zeroing = true := by
  unfold decodeReserved at h
  split at h
  · cases h
  · split at h
    · cases h
    · split at h
      · cases h
      · rename_i hz
        obtain ⟨hrm, haaa, hzero⟩ := selectForm_ok h
        refine ⟨hrm, ?_⟩
        rw [haaa, hzero, maskWellFormed, Bool.not_eq_true', Bool.eq_false_iff]
        exact hz

/-- The inversion of an accepted decoding: six bytes with the fixed fields, an operand, and the tests on reserved fields passed. -/
theorem decode_ok {sae : Bool} {bs : List Byte} {i : Instr} (h : decode sae bs = .ok i) :
    ∃ p0 p1 p2 op m rest rm, bs = 0x62 :: p0 :: p1 :: p2 :: op :: m :: rest ∧ fixedFieldsMatch p0 p1 op = true ∧
      decodeRM p0 m rest = .ok rm ∧ decodeReserved sae p0 p1 p2 m rm = .ok i := by
  unfold decode at h
  split at h
  · cases h
  · split at h
    · cases h
    · rename_i hb0
      split at h
      · rename_i p0 p1 p2 op m rest
        split at h
        · cases h
        · rename_i hfix
          split at h
          · cases h
          · rename_i rm hrm
            exact ⟨p0, p1, p2, op, m, rest, rm, by simpa using hb0, by simpa using hfix, hrm, h⟩
      · cases h

theorem decode_ok_wellFormed {sae : Bool} {bs : List Byte} {i : Instr} (h : decode sae bs = .ok i) :
    i.wellFormed = true ∧ i.length ≤ bs.length := by
  obtain ⟨p0, p1, p2, op, m, rest, rm, rfl, _, hrm, hres⟩ := decode_ok h
  obtain ⟨hwf, hlen⟩ := decodeRM_ok hrm
  obtain ⟨rfl, hmask⟩ := decodeReserved_ok hres
  rw [wellFormed_eq, length_eq, hwf, hmask]
  exact ⟨rfl, by simp only [List.length_cons]; omega⟩

/-- An instruction that was fetched and decoded lies below the top of the address space (10_state.md R21). -/
theorem fetchDecode_below_top {s : State} {i : Instr} (h : s.fetchDecode = .ok i) : s.rip.toNat + i.length ≤ 2 ^ 64 := by
  have hlen := (decode_ok_wellFormed h).2
  obtain ⟨_, htop, _⟩ := codeBytes_spec s
  have h6 := (length_bounds i).1
  have hne : s.codeBytes ≠ [] := fun he => by rw [he, List.length_nil] at hlen; omega
  exact Nat.le_trans (Nat.add_le_add_left hlen _) (htop hne)

/-! ### MXCSR after a completed instruction (10_state.md R17, R18, R19) -/

section Completed
variable (vl : VecLen) (d : VReg) (S : ZmmVal) (aaa : KReg) (z sae : Bool) (len : Nat) (s : State)

/-- Every bit of MXCSR: IE and DE keep what they had or take the request, the others are kept; `{sae}` requests nothing. -/
theorem completed_mxcsr_bit (b : Nat) : (completed vl d S aaa z sae len s).mxcsr.getLsbD b =
    (s.mxcsr.getLsbD b || (!sae && (b == 0 && ieAny vl s S aaa || b == 1 && deAny vl s S aaa))) := by
  rw [completed_mxcsr]
  cases sae with
  | true => simp
  | false => simp [flagWord_bit]

theorem completed_mxcsr_other {b : Nat} (hb : 2 ≤ b) :
    (completed vl d S aaa z sae len s).mxcsr.getLsbD b = s.mxcsr.getLsbD b := by
  have h0 : (b == 0) = false := beq_eq_false_iff_ne.2 (by omega)
  have h1 : (b == 1) = false := beq_eq_false_iff_ne.2 (by omega)
  simp [completed_mxcsr_bit, h0, h1]

theorem completed_mxIE : mxIE (completed vl d S aaa z sae len s).mxcsr = (mxIE s.mxcsr || (!sae && ieAny vl s S aaa)) := by
  rw [mxIE, completed_mxcsr_bit]
  simp [mxIE]

theorem completed_mxDE : mxDE (completed vl d S aaa z sae len s).mxcsr = (mxDE s.mxcsr || (!sae && deAny vl s S aaa)) := by
  rw [mxDE, completed_mxcsr_bit]
  simp [mxDE]

theorem completed_reserved : mxReserved (completed vl d S aaa z sae len s).mxcsr = mxReserved s.mxcsr := by
  apply BitVec.eq_of_getLsbD_eq
  intro b hb
  simp only [mxReserved, BitVec.getLsbD_extractLsb', completed_mxcsr_other (hb := show 2 ≤ 16 + b by omega)]

theorem completed_readK (a : KReg) : (completed vl d S aaa z sae len s).readK a = s.readK a := by
  simp [State.readK]

/-- A completed instruction keeps the machine's invariant. -/
theorem completed_inv (h : Inv s) : Inv (completed vl d S aaa z sae len s) where
  memWf := by rw [completed_mem]; exact h.memWf
  reserved := by rw [completed_reserved]; exact h.reserved
  opmasks a := by simp only [completed_readK, completed_k]; exact h.opmasks a
  launch := by
    obtain ⟨hmode, hos⟩ := h.launch
    exact ⟨by rw [completed_mode, hmode], by rw [completed_osEnabled, hos]⟩

end Completed

/-! ### The step -/

/-- Settles O51: a completed step left a completed state of the instruction it decoded, and what was decoded lies within the
bytes fetched. -/
theorem stepFrame : Obligations.StepFrame := by
  unfold Obligations.StepFrame
  intro s t h
  obtain ⟨i, S, hdec, _, rfl⟩ := step_completed h
  obtain ⟨h6, h11⟩ := length_bounds i
  refine ⟨i, hdec, (decode_ok_wellFormed hdec).1, h6, h11, fetchDecode_below_top hdec, completed_rip .., completed_frame ..,
    fun b hb => completed_mxcsr_other (hb := hb) .., fun hie => ?_, fun hde => ?_⟩
  · rw [completed_mxIE, hie, Bool.true_or]
  · rw [completed_mxDE, hde, Bool.true_or]

/-- Settles O53: a completed step left a completed state, which keeps the invariant. -/
theorem stepKeepsInv : Obligations.StepKeepsInv := by
  unfold Obligations.StepKeepsInv
  intro s t hinv h
  obtain ⟨i, S, _, _, rfl⟩ := step_completed h
  exact completed_inv (h := hinv) ..

/-! ### Code across the top of the address space (10_state.md R21, 20_memory.md R37) -/

/-- A first byte 0x62 with fewer than five bytes after it: six bytes are wanted. -/
theorem decode_fewer_than_six {sae : Bool} {rest : List Byte} (h : rest.length < 5) :
    decode sae (0x62 :: rest) = .truncated 6 := by
  match rest, h with
  | [], _ => rfl
  | [_], _ => rfl
  | [_, _], _ => rfl
  | [_, _, _], _ => rfl
  | [_, _, _, _], _ => rfl
  | _ :: _ :: _ :: _ :: _ :: _, h => simp only [List.length_cons] at h; omega

/-- Bytes with the fixed fields that end inside the operand: the length of R60 is wanted. -/
theorem decode_operand_short {sae : Bool} {p0 p1 p2 op m : Byte} {rest : List Byte} (hfix : fixedFieldsMatch p0 p1 op = true)
    (h : rest.length < tailBytes m (rest.headD 0)) :
    decode sae (0x62 :: p0 :: p1 :: p2 :: op :: m :: rest) = .truncated (6 + tailBytes m (rest.headD 0)) := by
  simp [decode, hfix, decodeRM_short h]

theorem step_truncated {s : State} {need : Nat} (hmode : s.mode = .bits64) (h : s.fetchDecode = .truncated need) :
    step s = .fault (.memFault s.rip s.rip need) := by
  rw [step_of_decode hmode, h]
  rfl

/-- Bytes that were fetched end below the top of the address space. -/
theorem codeBytes_cons_below_top {s : State} {b : Byte} {bs : List Byte} (h : s.codeBytes = b :: bs) :
    s.rip.toNat + (bs.length + 1) ≤ 2 ^ 64 := by
  obtain ⟨_, htop, _⟩ := codeBytes_spec s
  rw [h] at htop
  exact htop (List.cons_ne_nil b bs)

/-- Settles O14: the bytes fetched end at the top of the address space, so that the decoder misses the ones across it. -/
theorem codeNeverWraps : Obligations.CodeNeverWraps := by
  unfold Obligations.CodeNeverWraps
  constructor
  · intro s hmode hread hcross
    obtain ⟨rest, hcode⟩ := codeBytes_prefix (s := s) [0x62] (by decide) s.rip.isLt fun k hk => by
      obtain rfl : k = 0 := by simpa using hk
      exact hread
    change s.codeBytes = 0x62 :: rest at hcode
    have htop := codeBytes_cons_below_top hcode
    exact step_truncated hmode (by rw [State.fetchDecode, hcode]; exact decode_fewer_than_six (by omega))
  · intro s p0 p1 p2 m rest hmode hcode hp0 hp1w hp1one hp1pp hcross
    have htop := codeBytes_cons_below_top hcode
    simp only [List.length_cons] at htop
    have hfix : fixedFieldsMatch p0 p1 0x42 = true := by rw [fixedFieldsMatch, hp0, hp1w, hp1one, hp1pp]; rfl
    exact step_truncated hmode (by rw [State.fetchDecode, hcode]; exact decode_operand_short hfix (by omega))

/-! ### The ten forms: flags and frame (10_state.md R17, R19, R23) -/

/-- An instruction that completes read its source and left the completed state. -/
theorem exec_next {i : Instr} {s t : State} (h : exec i s = .next t) :
    ∃ S, sourceValue i.vecLen s (sourceOf i s) = .ok S ∧
      t = completed i.vecLen i.dest S i.maskReg i.zeroing i.isSae i.length s := by
  rw [exec_eq] at h
  obtain ⟨_, _, S, hS, _, ht⟩ := vgetexpps_next h
  exact ⟨S, hS, ht⟩

/-- An element requests IE exactly when it is a signalling NaN (40_getexp_element.md R79). -/
theorem getExpSP_ie (x : Elem) (daz : Bool) : (getExpSP x daz).ie = isSNaN x := by
  unfold getExpSP isSNaN
  split
  · rename_i hnan
    rw [beq_iff_eq.2 hnan.1, bne_iff_ne.2 hnan.2]; rfl
  · rename_i hnan
    split
    · rename_i he
      have hf : fraction x = 0 := Decidable.byContradiction fun hf => hnan ⟨he, hf⟩
      rw [hf, bne_self_eq_false, Bool.and_false]; rfl
    · rename_i he
      rw [beq_eq_false_iff_ne.2 he]
      split
      · rfl
      · split <;> rfl

/-- An element requests DE exactly when it is a denormal and DAZ is 0 (40_getexp_element.md R79). -/
theorem getExpSP_de (x : Elem) (daz : Bool) : (getExpSP x daz).de = (isDenormal x && !daz) := by
  unfold getExpSP isDenormal
  split
  · rename_i hnan
    rw [hnan.1]; rfl
  · split
    · rename_i hinf
      rw [hinf]; rfl
    · split
      · rename_i hzero
        obtain ⟨_, hf | hd⟩ := hzero
        · rw [hf, bne_self_eq_false, Bool.and_false]; rfl
        · rw [hd, Bool.not_true, Bool.and_false]
      · rename_i hzero
        split
        · rename_i he
          have hf : fraction x ≠ 0 := fun hf => hzero ⟨he, .inl hf⟩
          have hd : daz = false := Bool.eq_false_iff.2 fun hd => hzero ⟨he, .inr hd⟩
          rw [beq_iff_eq.2 he, bne_iff_ne.2 hf, hd]; rfl
        · rename_i he
          rw [beq_eq_false_iff_ne.2 he]; rfl

section Requests
variable {i : Instr} {s : State} {S : ZmmVal} (hS : sourceValue i.vecLen s (sourceOf i s) = .ok S)
include hS

theorem elementAt_sourceValue {j : Nat} (hj : j < kl i.vecLen) :
    elementAt s S j = getExpSP (sourceElem i s j) (mxDAZ s.mxcsr) := by
  rw [elementAt, lane_sourceValue hS hj]

theorem ieAny_iff_requestsIE : ieAny i.vecLen s S i.maskReg = true ↔ RequestsIE i s := by
  rw [ieAny_iff, RequestsIE]
  refine exists_congr fun j => and_congr_right fun hj => ?_
  rw [selected_iff, elementAt_sourceValue hS hj, getExpSP_ie]

theorem deAny_iff_requestsDE : deAny i.vecLen s S i.maskReg = true ↔ RequestsDE i s := by
  rw [deAny_iff, RequestsDE, ← exists_and_left]
  refine exists_congr fun j => ?_
  rw [@and_left_comm (mxDAZ s.mxcsr = false)]
  refine and_congr_right fun hj => ?_
  rw [selected_iff, elementAt_sourceValue hS hj, getExpSP_de, Bool.and_eq_true, Bool.not_eq_true']
  exact ⟨fun ⟨hc, hden, hdaz⟩ => ⟨hdaz, hc, hden⟩, fun ⟨hdaz, hc, hden⟩ => ⟨hc, hden, hdaz⟩⟩

end Requests

/-- Settles O38: MXCSR of the completed state, bit by bit. -/
theorem flagsSticky : Obligations.FlagsSticky := by
  unfold Obligations.FlagsSticky
  intro i s t h
  obtain ⟨S, hS, rfl⟩ := exec_next h
  refine ⟨?_, ?_, fun b hb => completed_mxcsr_other (hb := hb) ..⟩
  · rw [completed_mxIE, Bool.or_eq_true, Bool.and_eq_true, Bool.not_eq_true', ieAny_iff_requestsIE hS]
  · rw [completed_mxDE, Bool.or_eq_true, Bool.and_eq_true, Bool.not_eq_true', deAny_iff_requestsDE hS]

/-- Settles O39: every form that completes leaves a completed state. -/
theorem frameOfEveryForm : Obligations.FrameOfEveryForm := by
  unfold Obligations.FrameOfEveryForm
  intro i s t h
  obtain ⟨S, _, rfl⟩ := exec_next h
  exact ⟨completed_frame .., completed_rip ..⟩

/-! ### Which opmask bits count (10_state.md R16, decision D5) -/

/-- The state with other opmask registers and another K_WIDTH. -/
def withMasks (k : Vector (BitVec 64) 8) (w : KWidth) (s : State) : State :=
  { s with k := k, cfg := { s.cfg with kWidth := w } }

/-- The outcome with the next state changed. -/
def mapNext (f : State → State) : Outcome → Outcome
  | .next t => .next (f t)
  | .fault r => .fault r
  | .refused x => .refused x

section Masks
variable (k : Vector (BitVec 64) 8) (w : KWidth) (s : State)

theorem sourceOf_withMasks (i : Instr) : sourceOf i (withMasks k w s) = sourceOf i s := by
  have hindex : ∀ ix, indexTerm (withMasks k w s) ix = indexTerm s ix := fun ix => by cases ix <;> rfl
  have haddr : ∀ n len m, effectiveAddress n len (withMasks k w s) m = effectiveAddress n len s m := fun n len m => by
    cases m <;> simp only [effectiveAddress, hindex] <;> rfl
  cases i <;> simp only [sourceOf, fullSource, bcstSource, haddr]

theorem sourceValue_withMasks (vl : VecLen) (src : Source) : sourceValue vl (withMasks k w s) src = sourceValue vl s src := by
  cases src <;> rfl

theorem featuresPresent_withMasks (vl : VecLen) : featuresPresent (withMasks k w s).cfg vl = featuresPresent s.cfg vl := by
  cases vl <;> rfl

/-- Every opmask register has the sixteen bits that the longest vector needs, whatever K_WIDTH is. -/
theorem opmaskBits_low (w : KWidth) : ∀ j < 16, (opmaskBits w).getLsbD j = true := by
  cases w <;> decide

theorem readK_bit {a : KReg} {j : Nat} (hj : j < 16) : (s.readK a).getLsbD j = (s.k[a.toNat]'a.isLt).getLsbD j := by
  rw [State.readK, BitVec.getLsbD_and, opmaskBits_low _ j hj, Bool.and_true]

variable {k w s} {vl : VecLen} {aaa : KReg}

theorem selected_withMasks {j : Nat} (hj : j < 16)
    (h : aaa ≠ 0 → (k[aaa.toNat]'aaa.isLt).getLsbD j = (s.k[aaa.toNat]'aaa.isLt).getLsbD j) :
    selected (withMasks k w s) aaa j = selected s aaa j := by
  by_cases ha : aaa = 0
  · simp [selected, ha]
  · rw [selected, selected, readK_bit _ hj, readK_bit _ hj, ← h ha]
    rfl

section Selected
variable (hsel : ∀ j < kl vl, selected (withMasks k w s) aaa j = selected s aaa j)
include hsel

theorem ieAny_withMasks (S : ZmmVal) : ieAny vl (withMasks k w s) S aaa = ieAny vl s S aaa := by
  rw [Bool.eq_iff_iff, ieAny_iff, ieAny_iff]
  exact exists_congr fun j => and_congr_right fun hj => by rw [hsel j hj]; rfl

theorem deAny_withMasks (S : ZmmVal) : deAny vl (withMasks k w s) S aaa = deAny vl s S aaa := by
  rw [Bool.eq_iff_iff, deAny_iff, deAny_iff]
  exact exists_congr fun j => and_congr_right fun hj => by rw [hsel j hj]; rfl

theorem resultVector_withMasks (d : VReg) (S : ZmmVal) (z : Bool) :
    resultVector vl (withMasks k w s) d S aaa z = resultVector vl s d S aaa z :=
  packLanes_congr fun j hj => by rw [resultLane, hsel j hj]; rfl

theorem completed_withMasks (d : VReg) (S : ZmmVal) (z sae : Bool) (len : Nat) :
    completed vl d S aaa z sae len (withMasks k w s) = withMasks k w (completed vl d S aaa z sae len s) := by
  rw [completed, ieAny_withMasks hsel, deAny_withMasks hsel, resultVector_withMasks hsel]
  cases sae <;> rfl

theorem finish_withMasks (d : VReg) (S : ZmmVal) (z sae : Bool) (len : Nat) :
    finish vl d S aaa z sae len (withMasks k w s) = mapNext (withMasks k w) (finish vl d S aaa z sae len s) := by
  rw [finish, finish, ieAny_withMasks hsel, deAny_withMasks hsel, completed_withMasks hsel]
  change (if !sae && unmasked s.mxcsr _ _ then _ else _) = _
  split <;> rfl

theorem vgetexpps_withMasks (d : VReg) (src : Source) (z sae : Bool) (len : Nat) :
    vgetexpps vl d src aaa z sae len (withMasks k w s) = mapNext (withMasks k w) (vgetexpps vl d src aaa z sae len s) := by
  cases hos : s.osEnabled with
  | false => rw [vgetexpps_not_enabled hos, vgetexpps_not_enabled (s := withMasks k w s) hos]; rfl
  | true =>
    cases hf : featuresPresent s.cfg vl with
    | false =>
      have hf' := (featuresPresent_withMasks k w s vl).trans hf
      rw [vgetexpps_no_feature hos hf, vgetexpps_no_feature (s := withMasks k w s) hos hf']; rfl
    | true =>
      have hf' := (featuresPresent_withMasks k w s vl).trans hf
      cases hS : sourceValue vl s src with
      | error e =>
        have hS' := (sourceValue_withMasks k w s vl src).trans hS
        rw [vgetexpps_source_error hos hf hS, vgetexpps_source_error (s := withMasks k w s) hos hf' hS']; rfl
      | ok S =>
        have hS' := (sourceValue_withMasks k w s vl src).trans hS
        rw [vgetexpps_source_ok hos hf hS, vgetexpps_source_ok (s := withMasks k w s) hos hf' hS', finish_withMasks hsel]

end Selected

end Masks

/-- Settles O42: the masks count through `selected` below KL only, so the whole outcome follows them there. -/
theorem onlyLowMaskBitsMatter : Obligations.OnlyLowMaskBitsMatter := by
  unfold Obligations.OnlyLowMaskBitsMatter
  intro i s k w hlow
  have hsel : ∀ j < kl i.vecLen, selected (withMasks k w s) i.maskReg j = selected s i.maskReg j := fun j hj =>
    selected_withMasks (Nat.lt_of_lt_of_le hj (kl_le _)) fun ha => hlow ha j hj
  have hexec : exec i (withMasks k w s) = mapNext (withMasks k w) (exec i s) := by
    rw [exec_eq, exec_eq, sourceOf_withMasks, vgetexpps_withMasks hsel]
  change exec i (withMasks k w s) = _
  rw [hexec]
  cases hs : exec i s with
  | next t =>
    obtain ⟨S, _, rfl⟩ := exec_next hs
    simp [mapNext, withMasks]
  | fault f => rfl
  | refused x => rfl

/-! ### Vector registers and the state after reset (10_state.md R13, R14, R15, R26, R27) -/

/-- Settles O49: xmm and ymm are truncations of one value, and a register write replaces that value only. -/
theorem xmmYmmAreViews : Obligations.XmmYmmAreViews := by
  unfold Obligations.XmmYmmAreViews
  intro s i r v
  refine ⟨BitVec.setWidth_setWidth_of_le _ (by decide), rfl, readZmm_writeZmm_self s i v, ?_, ?_, readZmm_writeZmm_ne s v⟩
  · rw [State.readYmm, readZmm_writeZmm_self]
  · rw [State.readXmm, readZmm_writeZmm_self]

theorem reset_readZmm (r : VReg) : State.reset.readZmm r = 0 := by simp [State.readZmm, State.reset]
theorem reset_readK (a : KReg) : State.reset.readK a = 0 := by simp [State.readK, State.reset]
theorem reset_readGpr (r : GReg) : State.reset.readGpr r = 0 := by simp [State.readGpr, State.reset]

/-- Settles O54: at reset memory lists nothing, MXCSR is 0x1F80 and the opmask registers are zero. -/
theorem resetInv : Obligations.ResetInv where
  memWf := rfl
  reserved := by decide
  opmasks a := by rw [reset_readK]; simp [State.reset]
  launch := ⟨rfl, rfl⟩

/-- Settles O55: the fields of the reset state, and the fault of a fetch from a memory that admits nothing. -/
theorem resetValues : Obligations.ResetValues := by
  unfold Obligations.ResetValues
  exact ⟨rfl, ⟨by decide, by decide⟩, by decide, by decide, by decide, reset_readZmm, reset_readK, reset_readGpr, rfl, ⟨rfl, rfl⟩,
    fun _ => rfl, step_truncated rfl rfl⟩

end Sys2Proof.Proofs
end

section
/-! PROOFS of the statements of 20_memory.md, and the laws they rest on. -/

namespace Sys2Proof.Proofs

open Sys2Proof.Machine

/-! ### Bytes in memory (20_memory.md R28, R30, R37) -/

@[simp] theorem read_cons_self (k : Nat) (b : Byte) (rest : Memory) : Memory.read ((k, b) :: rest) k = some b := if_pos rfl

theorem read_cons_ne {k a : Nat} (b : Byte) (rest : Memory) (h : k ≠ a) : Memory.read ((k, b) :: rest) a = rest.read a :=
  if_neg h

/-- In the canonical form no address below the first one listed has a value. -/
theorem le_of_read_cons {lo k a : Nat} {b v : Byte} {rest : Memory} (hwf : Memory.wfFrom lo ((k, b) :: rest) = true)
    (h : Memory.read ((k, b) :: rest) a = some v) : k ≤ a := by
  obtain ⟨_, hk, hrest⟩ := wfFrom_cons.1 hwf
  refine Nat.le_of_not_lt fun hlt => ?_
  rw [read_eq_none_of_lt (wfFrom_cons.2 ⟨Nat.le_refl k, hk, hrest⟩) hlt] at h
  cases h

/-- What is listed after the first address reads alike where the whole does, for it lists neither that address nor one below. -/
theorem read_tail_congr {k : Nat} {b : Byte} {r₁ r₂ : Memory} (h₁ : Memory.wfFrom (k + 1) r₁ = true)
    (h₂ : Memory.wfFrom (k + 1) r₂ = true) (h : ∀ a, Memory.read ((k, b) :: r₁) a = Memory.read ((k, b) :: r₂) a) (a : Nat) :
    r₁.read a = r₂.read a := by
  rcases Nat.lt_or_ge k a with hlt | hle
  · rw [← read_cons_ne b r₁ (Nat.ne_of_lt hlt), h a, read_cons_ne b r₂ (Nat.ne_of_lt hlt)]
  · rw [read_eq_none_of_lt h₁ (Nat.lt_succ_of_le hle), read_eq_none_of_lt h₂ (Nat.lt_succ_of_le hle)]

/-- Canonical memories that read alike are equal: each first address has a value in the other memory, so neither is the lower one. -/
theorem eq_of_read_eq : ∀ {m₁ m₂ : Memory} {lo₁ lo₂ : Nat}, Memory.wfFrom lo₁ m₁ = true → Memory.wfFrom lo₂ m₂ = true →
    (∀ a, m₁.read a = m₂.read a) → m₁ = m₂
  | [], [], _, _, _, _, _ => rfl
  | [], (k, _) :: _, _, _, _, _, h => absurd (h k) (by simp [Memory.read])
  | (k, _) :: _, [], _, _, _, _, h => absurd (h k) (by simp [Memory.read])
  | (k₁, b₁) :: r₁, (k₂, b₂) :: r₂, _, _, h₁, h₂, h => by
    have hk₁ : Memory.read ((k₂, b₂) :: r₂) k₁ = some b₁ := by rw [← h k₁, read_cons_self]
    have hk₂ : Memory.read ((k₁, b₁) :: r₁) k₂ = some b₂ := by rw [h k₂, read_cons_self]
    obtain rfl : k₁ = k₂ := Nat.le_antisymm (le_of_read_cons h₁ hk₂) (le_of_read_cons h₂ hk₁)
    obtain rfl : b₁ = b₂ := by simpa using hk₂
    obtain ⟨_, _, hr₁⟩ := wfFrom_cons.1 h₁
    obtain ⟨_, _, hr₂⟩ := wfFrom_cons.1 h₂
    rw [eq_of_read_eq hr₁ hr₂ (read_tail_congr hr₁ hr₂ h)]

/-- Settles O48: by induction on both memories (`eq_of_read_eq`); where each canonical form starts does not matter. -/
theorem canonicalMemoryExtensional : Obligations.CanonicalMemoryExtensional := by
  unfold Obligations.CanonicalMemoryExtensional
  intro m₁ m₂ h₁ h₂ h
  exact eq_of_read_eq h₁ h₂ h

/-- Settles O46: the law `packBytes_lane`, that bit `b` of a little-endian value is of byte `b / 8`. -/
theorem littleEndianElements : Obligations.LittleEndianElements := by
  unfold Obligations.LittleEndianElements
  intro m a n j bs h hn hj
  exact packBytes_lane h hn hj

/-- An address inside a range that does not wrap does not wrap either. -/
theorem toNat_add_ofNat {a : Addr} {i : Nat} (h : a.toNat + i < 2 ^ 64) : (a + BitVec.ofNat 64 i).toNat = a.toNat + i := by
  rw [BitVec.toNat_add, BitVec.toNat_ofNat, Nat.add_mod_mod, Nat.mod_eq_of_lt h]

/-- Part of an admitted range is admitted. -/
theorem readRange_part {m : Memory} {a : Addr} {n i l : Nat} {bs : List Byte} (h : m.readRange a n = some bs) (hl : 0 < l)
    (hin : i + l ≤ n) : ∃ part, m.readRange (a + BitVec.ofNat 64 i) l = some part := by
  obtain ⟨htop, hread⟩ := readRange_isSome_iff.1 ⟨bs, h⟩
  rw [readRange_isSome_iff, toNat_add_ofNat (by omega)]
  refine ⟨by omega, fun k hk => ?_⟩
  rw [Nat.add_assoc]
  exact hread (i + k) (by omega)

/-- Settles O47: the four bytes of element `j` are admitted with the operand, and both elements are the one memory holds there. -/
theorem broadcastAgreesWithFullVector : Obligations.BroadcastAgreesWithFullVector := by
  unfold Obligations.BroadcastAgreesWithFullVector
  intro vl s ea j n S hj hn hS
  obtain ⟨bs, hbs, _⟩ := sourceValue_mem hS
  obtain ⟨htop, _⟩ := readRange_eq_some hbs
  change ea.toNat + 4 * kl vl ≤ 2 ^ 64 at htop
  obtain ⟨part, hpart⟩ := readRange_part (i := 4 * j) (l := 4) hbs (by omega) (show 4 * j + 4 ≤ 4 * kl vl by omega)
  have hB := sourceValue_some (vl := vl) (bcst := true) hpart
  refine ⟨_, hB, ?_⟩
  rw [lane_sourceValue_bcst hB hn, lane_sourceValue_full hS hj, toNat_add_ofNat (by omega)]

/-! ### Instruction bytes that memory does not admit (20_memory.md R37, decision D10) -/

/-- The bytes fetched end before an address that has no value. -/
theorem codeBytes_length_le {s : State} {n : Nat} (h : s.mem.read (s.rip.toNat + n) = none) : s.codeBytes.length ≤ n := by
  obtain ⟨_, _, hread⟩ := codeBytes_spec s
  refine Nat.le_of_not_lt fun hlt => ?_
  have := hread n hlt
  rw [h, List.getElem?_eq_getElem hlt] at this
  cases this

/-- The first byte fetched is the one at `rip`. -/
theorem codeBytes_of_read_rip {s : State} {b : Byte} (h : s.mem.read s.rip.toNat = some b) : ∃ rest, s.codeBytes = b :: rest :=
  codeBytes_prefix [b] (by decide : 1 ≤ 11) s.rip.isLt fun k hk => by
    obtain rfl : k = 0 := by simpa using hk
    exact h

/-- Settles O13: the bytes fetched end at the one not admitted, and the decoder asks for as many as it needs. -/
theorem fetchOutsideMemoryFaults : Obligations.FetchOutsideMemoryFaults := by
  unfold Obligations.FetchOutsideMemoryFaults
  refine ⟨?_, ?_, ?_⟩
  · intro s hmode hread
    have hcode : s.codeBytes = [] := List.eq_nil_of_length_eq_zero (Nat.le_zero.1 (codeBytes_length_le (n := 0) hread))
    exact step_truncated hmode (by rw [State.fetchDecode, hcode]; rfl)
  · intro s n hmode hfirst hn hread
    obtain ⟨rest, hcode⟩ := codeBytes_of_read_rip hfirst
    have hlen := codeBytes_length_le hread
    rw [hcode, List.length_cons] at hlen
    exact step_truncated hmode (by rw [State.fetchDecode, hcode]; exact decode_fewer_than_six (by omega))
  · intro s p0 p1 p2 m rest hmode hcode hp0 hp1w hp1one hp1pp hshort
    have hfix : fixedFieldsMatch p0 p1 0x42 = true := by rw [fixedFieldsMatch, hp0, hp1w, hp1one, hp1pp]; rfl
    exact step_truncated hmode (by rw [State.fetchDecode, hcode]; exact decode_operand_short hfix hshort)

/-! ### Operand bytes that memory does not admit (20_memory.md R37, R38, decisions D10, D11) -/

theorem featuresPresent_of_enabled {i : Instr} {s : State} (h : Enabled i s) : featuresPresent s.cfg i.vecLen = true :=
  (featuresPresent_iff i s).2 h.2

/-- An enabled form whose operand is not wholly admitted ends in the fault for the whole operand. -/
theorem exec_not_admitted {i : Instr} {s : State} {ea : Addr} {n : Nat} (hen : Enabled i s)
    (hr : operandRange i s = some (ea, n)) (ha : ¬ Admit s.mem ea n) : exec i s = .fault (.memFault s.rip ea n) := by
  rw [exec_eq]
  exact vgetexpps_source_error hen.1 (featuresPresent_of_enabled hen) (source_error hr ha)

/-- An enabled form whose operand is admitted has read its source. -/
theorem exec_admitted {i : Instr} {s : State} (hen : Enabled i s) (ha : OperandAdmitted i s) :
    ∃ S, sourceValue i.vecLen s (sourceOf i s) = .ok S ∧
      exec i s = finish i.vecLen i.dest S i.maskReg i.zeroing i.isSae i.length s := by
  obtain ⟨S, hS⟩ := (source_ok_iff i s).2 ha
  exact ⟨S, hS, by rw [exec_eq, vgetexpps_source_ok hen.1 (featuresPresent_of_enabled hen) hS]⟩

/-- Once the source is read, `#XM` is the only fault left. -/
theorem finish_fault {vl : VecLen} {d : VReg} {S : ZmmVal} {aaa : KReg} {z sae : Bool} {len : Nat} {s : State} {f : Fault}
    (h : finish vl d S aaa z sae len s = .fault f) : f = .xm s.rip := by
  unfold finish at h
  split at h
  · cases h; rfl
  · cases h

/-- The address and the size of the operand do not hang on the opmask registers. -/
theorem operandRange_other_k (i : Instr) (s : State) (k : Vector (BitVec 64) 8) :
    operandRange i { s with k := k } = operandRange i s := by
  cases i <;> rfl

/-- Settles O33: neither the operand's range nor its admission hangs on the opmask registers, and an operand that is read leaves `#XM`
as the only fault. -/
theorem memFaultWhateverTheMask : Obligations.MemFaultWhateverTheMask := by
  unfold Obligations.MemFaultWhateverTheMask
  intro i s ea n k hen hr
  have hr' : operandRange i { s with k := k } = some (ea, n) := (operandRange_other_k i s k).trans hr
  have hfault : ¬ Admit s.mem ea n → exec i { s with k := k } = .fault (.memFault s.rip ea n) :=
    exec_not_admitted (s := { s with k := k }) hen hr'
  refine ⟨fun b hb hnone => hfault fun ha => ?_, hfault, fun ha rip a l h => ?_⟩
  · have hsome := ha.2 b hb
    rw [hnone] at hsome
    cases hsome
  · have hadm : OperandAdmitted i { s with k := k } := fun ea' n' he => by
      rw [hr'] at he
      cases he
      exact ha
    obtain ⟨S, _, hexec⟩ := exec_admitted (s := { s with k := k }) hen hadm
    cases finish_fault (hexec.symm.trans h)

/-! ### Stores (20_memory.md R35) -/

/-- Settles O50: a step that completes left a completed state of its instruction, whose memory is the old one. -/
theorem stepNeverStores : Obligations.StepNeverStores := by
  unfold Obligations.StepNeverStores
  intro s t h
  obtain ⟨i, S, _, _, rfl⟩ := step_completed h
  exact ⟨completed_mem .., fun _ => by rw [completed_mem]⟩

end Sys2Proof.Proofs
end

section
/-! PROOFS of the statements of 30_encoding.md, and the laws they rest on. -/

namespace Sys2Proof.Proofs

open Sys2Proof.Machine

/-! ### Decoding an encoding (30_encoding.md R44 to R56) -/

/-- The index term is read back from `X̄` and the SIB byte: number 4 is the only one that stands for no index. -/
theorem decodeIndex_encoded {ix : Index} (base : BitVec 3) (hwf : ix.wellFormed = true) :
    decodeIndex (!ix.reg.getLsbD 3) (packByte ix.scale (ix.reg.extractLsb' 0 3) base) = ix := by
  simp only [decodeIndex, bits53_packByte, bits76_packByte, gregNum_bits]
  cases ix with
  | none => rfl
  | scaled r scale => exact if_neg (bne_iff_ne.1 hwf)

theorem decodeNoSib_encoded {r : GReg} {disp : Disp} (rest : List Byte) (hwf : (MemOp.base r disp).wellFormed = true) :
    decodeNoSib (!r.getLsbD 3) disp.mod (r.extractLsb' 0 3) (disp.bytes ++ rest) = .ok (.base r disp) := by
  rw [decodeNoSib, gregNum_bits]
  cases disp with
  | none => exact if_neg (bne_iff_ne.1 (Bool.and_eq_true_iff.1 hwf).2)
  | disp8 d => rfl
  | disp32 d => simp [Disp.mod, Disp.bytes, takeDisp32_bytes, Except.map]

theorem decodeSib_encoded {r : GReg} {ix : Index} {disp : Disp} (rest : List Byte)
    (hwf : (MemOp.sib r ix disp).wellFormed = true) :
    decodeSib (!ix.reg.getLsbD 3) (!r.getLsbD 3) disp.mod
      (packByte ix.scale (ix.reg.extractLsb' 0 3) (r.extractLsb' 0 3) :: (disp.bytes ++ rest)) = .ok (.sib r ix disp) := by
  cases disp with
  | none =>
    obtain ⟨hix, hbase⟩ := Bool.and_eq_true_iff.1 hwf
    rw [decodeSib, bits20_packByte, gregNum_bits, decodeIndex_encoded _ hix]
    exact if_neg (bne_iff_ne.1 hbase)
  | disp8 d =>
    rw [decodeSib, bits20_packByte, gregNum_bits, decodeIndex_encoded _ hwf]
    rfl
  | disp32 d =>
    rw [decodeSib, bits20_packByte, gregNum_bits, decodeIndex_encoded _ hwf]
    simp [Disp.mod, Disp.bytes, takeDisp32_bytes, Except.map]

theorem decodeSib_noBase_encoded {ix : Index} (bbar : Bool) (d : BitVec 32) (rest : List Byte) (hwf : ix.wellFormed = true) :
    decodeSib (!ix.reg.getLsbD 3) bbar 0 (packByte ix.scale (ix.reg.extractLsb' 0 3) 5 :: (disp32Bytes d ++ rest)) =
      .ok (.sibNoBase ix d) := by
  rw [decodeSib, bits20_packByte, decodeIndex_encoded _ hwf]
  simp [takeDisp32_bytes, Except.map]

/-- A displacement selects memory: `ModRM.mod` is not 11. -/
theorem dispMod_ne_three (disp : Disp) : disp.mod ≠ 3 := by cases disp <;> simp [Disp.mod]

/-- A memory operand is encoded with `ModRM.mod` other than 11. -/
theorem encodeRM_mem_mod (op : MemOp) : (encodeRM (.mem op)).mod ≠ 3 := by
  cases op with
  | base r disp => exact dispMod_ne_three disp
  | ripRel d => exact (by decide : (0 : BitVec 2) ≠ 3)
  | sib r ix disp => exact dispMod_ne_three disp
  | sibNoBase ix d => exact (by decide : (0 : BitVec 2) ≠ 3)

/-- Without a SIB byte, r/m is not 100. -/
theorem base_low_ne_four {r : GReg} {disp : Disp} (hwf : (MemOp.base r disp).wellFormed = true) :
    r.extractLsb' 0 3 ≠ 4#3 := by
  cases disp with
  | none => exact bne_iff_ne.1 (Bool.and_eq_true_iff.1 hwf).1
  | disp8 _ => exact bne_iff_ne.1 hwf
  | disp32 _ => exact bne_iff_ne.1 hwf

/-! The three shapes of the operand that ModRM selects (30_encoding.md R48 to R50). -/

theorem decodeRM_reg {p0 m : Byte} (rest : List Byte) (hmod : bits76 m = 3) :
    decodeRM p0 m rest = .ok (.reg (vregNum (p0.getLsbD 6) (p0.getLsbD 5) (bits20 m))) := if_pos hmod

theorem decodeRM_sib {p0 m : Byte} (rest : List Byte) (hmod : bits76 m ≠ 3) (hrm : bits20 m = 4) :
    decodeRM p0 m rest = (decodeSib (p0.getLsbD 6) (p0.getLsbD 5) (bits76 m) rest).map .mem := by
  rw [decodeRM, if_neg hmod, if_pos hrm]

theorem decodeRM_noSib {p0 m : Byte} (rest : List Byte) (hmod : bits76 m ≠ 3) (hrm : bits20 m ≠ 4) :
    decodeRM p0 m rest = (decodeNoSib (p0.getLsbD 5) (bits76 m) (bits20 m) rest).map .mem := by
  rw [decodeRM, if_neg hmod, if_neg hrm]

/-- The operand is read back from the bytes its encoding gives, whatever ModRM.reg is and whatever follows. -/
theorem decodeRM_encoded {rm : RM} (d : VReg) (reg : BitVec 3) (rest : List Byte) (hwf : rmWellFormed rm = true) :
    decodeRM (p0Byte d (encodeRM rm).xbar (encodeRM rm).bbar) (packByte (encodeRM rm).mod reg (encodeRM rm).rm)
      ((encodeRM rm).tail ++ rest) = .ok rm := by
  obtain ⟨_, hx, hb, _, _⟩ := p0Byte_fields d (encodeRM rm).xbar (encodeRM rm).bbar
  have hmod := bits76_packByte (encodeRM rm).mod reg (encodeRM rm).rm
  have hrm := bits20_packByte (encodeRM rm).mod reg (encodeRM rm).rm
  cases rm with
  | reg s =>
    rw [decodeRM_reg _ hmod, hx, hb, hrm]
    exact congrArg (fun r => Except.ok (RM.reg r)) (vregNum_bits s)
  | mem op =>
    have hmem : bits76 (packByte (encodeRM (.mem op)).mod reg (encodeRM (.mem op)).rm) ≠ 3 :=
      fun h => encodeRM_mem_mod op (hmod.symm.trans h)
    cases op with
    | base r disp =>
      rw [decodeRM_noSib _ hmem fun h => base_low_ne_four hwf (hrm.symm.trans h), hb, hmod, hrm]
      exact congrArg (Except.map RM.mem) (decodeNoSib_encoded rest hwf)
    | ripRel d32 =>
      rw [decodeRM_noSib _ hmem fun h => absurd (hrm.symm.trans h) (by decide : (5 : BitVec 3) ≠ 4), hb, hmod, hrm]
      simp only [encodeRM, decodeNoSib, takeDisp32_bytes, Except.map, if_pos]
    | sib r ix disp =>
      rw [decodeRM_sib _ hmem hrm, hx, hb, hmod]
      exact congrArg (Except.map RM.mem) (decodeSib_encoded rest hwf)
    | sibNoBase ix d32 =>
      rw [decodeRM_sib _ hmem hrm, hx, hb, hmod]
      exact congrArg (Except.map RM.mem) (decodeSib_noBase_encoded true d32 rest hwf)

/-- The fields of a form select it, whatever SAE_IGNORES_LL is: its `{sae}` form has L'L = 10. -/
theorem selectForm_fields (sae : Bool) (i : Instr) : selectForm sae i.fields = .ok i := by cases i <;> rfl

/-- The fixed fields of bytes 1, 2 and 4 match, field by field (30_encoding.md R46). -/
theorem fixedFieldsMatch_iff {p0 p1 op : Byte} : fixedFieldsMatch p0 p1 op = true ↔
    p0.extractLsb' 0 4 = 0b0010#4 ∧ p1.getLsbD 7 = false ∧ p1.getLsbD 2 = true ∧ p1.extractLsb' 0 2 = 0b01#2 ∧ op = 0x42 := by
  simp [fixedFieldsMatch, and_assoc]

theorem fixedFieldsMatch_encoded (d : VReg) (xbar bbar : Bool) : fixedFieldsMatch (p0Byte d xbar bbar) 0x7D 0x42 = true :=
  fixedFieldsMatch_iff.2 ⟨(p0Byte_fields d xbar bbar).1, by decide⟩

/-- The fields that P0, P2, ModRM and the operand give (30_encoding.md R45, R48). -/
def decodedFields (p0 p2 m : Byte) (rm : RM) : Fields :=
  { ll := p2.extractLsb' 5 2, b := p2.getLsbD 4, z := p2.getLsbD 7, aaa := bits20 p2, d := destOf p0 m, rm := rm }

/-- Two tests in a row that both answer `#UD` are one test. -/
theorem ite_ud_or {p q : Prop} [Decidable p] [Decidable q] (r : Decoded) :
    (if p then .ud else if q then .ud else r) = if p ∨ q then Decoded.ud else r := by
  by_cases hp : p
  · rw [if_pos hp, if_pos (Or.inl hp)]
  · by_cases hq : q
    · rw [if_neg hp, if_pos hq, if_pos (Or.inr hq)]
    · rw [if_neg hp, if_neg hq, if_neg (not_or.2 ⟨hp, hq⟩)]

/-- With vvvv = 1111 (P1 = 0x7D): `#UD` for `V̄'` = 0 and for zeroing without a mask, and else the form of the fields. -/
theorem decodeReserved_0x7D (sae : Bool) (p0 p2 m : Byte) (rm : RM) : decodeReserved sae p0 0x7D p2 m rm =
    if p2.getLsbD 3 = false ∨ (p2.getLsbD 7 = true ∧ bits20 p2 = 0) then .ud
    else selectForm sae (decodedFields p0 p2 m rm) := by
  have hvvvv : ¬ (((0x7D : Byte).extractLsb' 3 4 != 0b1111#4) = true) := by decide
  simp only [decodeReserved, if_neg hvvvv, Bool.and_eq_true, beq_iff_eq, Bool.not_eq_true', ite_ud_or]
  rfl

/-- The tests on reserved fields pass on the bytes of an encoding whose mask setting is not reserved: the form is selected by the
fields encoded. -/
theorem decodeReserved_encoded (sae : Bool) (f : Fields) (xbar bbar : Bool) (mod : BitVec 2) (low : BitVec 3)
    (hwf : maskWellFormed f.aaa f.z = true) :
    decodeReserved sae (p0Byte f.d xbar bbar) 0x7D (p2Byte f.z f.ll f.b f.aaa) (packByte mod (f.d.extractLsb' 0 3) low) f.rm =
      selectForm sae f := by
  obtain ⟨h3, h7, h4, hll, haaa⟩ := p2Byte_fields f.z f.b f.ll f.aaa
  have hmask : ¬ (f.z = true ∧ f.aaa = 0) := by
    rintro ⟨hz, h0⟩
    rw [hz, h0] at hwf
    cases hwf
  rw [decodeReserved_0x7D, decodedFields, h3, h7, h4, hll, haaa, destOf_encoded, if_neg (by simpa using hmask)]

/-- Past byte 0, the fixed fields and the operand, decoding is the tests on reserved fields (30_encoding.md R62). -/
theorem decode_eq_decodeReserved {sae : Bool} {p0 p1 p2 op m : Byte} {rest : List Byte} {rm : RM}
    (hfix : fixedFieldsMatch p0 p1 op = true) (hrm : decodeRM p0 m rest = .ok rm) :
    decode sae (0x62 :: p0 :: p1 :: p2 :: op :: m :: rest) = decodeReserved sae p0 p1 p2 m rm := by
  simp [decode, hfix, hrm]

/-- Settles O1: the operand is read back, the tests on reserved fields pass, and the fields select the form they came from. -/
theorem decodeEncode : Obligations.DecodeEncode := by
  unfold Obligations.DecodeEncode
  intro i sae rest hwf
  rw [wellFormed_eq, Bool.and_eq_true_iff] at hwf
  obtain ⟨hrm, hmask⟩ := hwf
  calc decode sae (encode i ++ rest)
    _ = selectForm sae i.fields :=
      (decode_eq_decodeReserved (fixedFieldsMatch_encoded ..) (decodeRM_encoded _ _ rest hrm)).trans
        (decodeReserved_encoded sae i.fields _ _ _ _ hmask)
    _ = .ok i := selectForm_fields sae i

theorem length_encode (i : Instr) : (encode i).length = i.length := by
  rw [encode, length_encodeFields, length_eq]
  cases i.fields.rm with
  | reg s => rfl
  | mem m => rw [length_encodeRM_mem, rmLength]

/-- Settles O8: the bytes fetched begin with the encoding, which is decoded whatever follows it. -/
theorem stepRunsTheBytesAtRip : Obligations.StepRunsTheBytesAtRip := by
  unfold Obligations.StepRunsTheBytesAtRip
  intro s i hmode hwf htop hmem
  have h11 := (length_bounds i).2
  rw [← length_encode] at htop hmem h11
  obtain ⟨rest, hcode⟩ := codeBytes_prefix (encode i) h11 htop hmem
  rw [step_of_decode hmode, State.fetchDecode, hcode, decodeEncode i _ rest hwf]
  rfl

/-! ### The bytes the decoder reads (30_encoding.md R60) -/

/-- `f` reads `n` bytes: any `n` bytes give a value with `P`, whatever follows them. -/
def Reads {α : Type} (f : List Byte → Except Nat α) (n : Nat) (P : α → Prop) : Prop :=
  ∀ own : List Byte, own.length = n → ∃ x, P x ∧ ∀ others, f (own ++ others) = .ok x

theorem reads_takeDisp8 (need : Nat) : Reads (takeDisp8 need) 1 fun _ => True := fun own h =>
  match own, h with
  | [d], _ => ⟨d, trivial, fun _ => rfl⟩

theorem reads_takeDisp32 (need : Nat) : Reads (takeDisp32 need) 4 fun _ => True := fun own h =>
  match own, h with
  | [b0, b1, b2, b3], _ => ⟨disp32Of b0 b1 b2 b3, trivial, fun _ => rfl⟩

theorem reads_nothing {α : Type} {P : α → Prop} {x : α} (hx : P x) : Reads (fun _ => .ok x) 0 P :=
  fun _ _ => ⟨x, hx, fun _ => rfl⟩

theorem Reads.map {α β : Type} {f : List Byte → Except Nat α} {n : Nat} {P : α → Prop} {Q : β → Prop} {g : α → β}
    (h : Reads f n P) (hg : ∀ x, P x → Q (g x)) : Reads (fun bs => (f bs).map g) n Q := fun own hown => by
  obtain ⟨x, hx, hread⟩ := h own hown
  exact ⟨g x, hg x hx, fun others => congrArg (Except.map g) (hread others)⟩

/-- The bytes of the displacement: four of them with mod = 00 only where r/m or the SIB base is the value 101 that stands for no base
register (30_encoding.md R49, R50). -/
def dispBytes (mod : BitVec 2) (low : BitVec 3) : Nat :=
  if mod = 1 then 1 else if mod = 2 then 4 else if low = 5 then 4 else 0

theorem tailBytes_reg {m : Byte} (sib : Byte) (hmod : bits76 m = 3) : tailBytes m sib = 0 := by
  simp [tailBytes, hmod]

theorem tailBytes_sib {m : Byte} (sib : Byte) (hmod : bits76 m ≠ 3) (hrm : bits20 m = 4) :
    tailBytes m sib = 1 + dispBytes (bits76 m) (bits20 sib) := by
  rcases mod_cases hmod with h | h | h <;> simp [tailBytes, dispBytes, h, hrm]

theorem tailBytes_noSib {m : Byte} (sib : Byte) (hmod : bits76 m ≠ 3) (hrm : bits20 m ≠ 4) :
    tailBytes m sib = dispBytes (bits76 m) (bits20 m) := by
  have hnone : ¬ (bits20 m = 4#3) := hrm
  rcases mod_cases hmod with h | h | h <;> simp [tailBytes, dispBytes, h, hnone]

theorem decodeNoSib_reads (b : Bool) {mod : BitVec 2} (rm : BitVec 3) (hmod : mod ≠ 3) :
    Reads (decodeNoSib b mod rm) (dispBytes mod rm) fun op => op.length = dispBytes mod rm := by
  rcases mod_cases hmod with rfl | rfl | rfl
  · by_cases hrm : rm = 5
    · subst hrm
      exact (reads_takeDisp32 10).map fun _ _ => rfl
    · have hnone : dispBytes 0 rm = 0 := if_neg hrm
      have hread : decodeNoSib b 0 rm = fun _ => .ok (.base (gregNum b rm) .none) := funext fun _ => if_neg hrm
      rw [hread, hnone]
      exact reads_nothing rfl
  · exact (reads_takeDisp8 7).map fun _ _ => rfl
  · exact (reads_takeDisp32 10).map fun _ _ => rfl

theorem decodeSib_reads (x b : Bool) {mod : BitVec 2} (sib : Byte) (hmod : mod ≠ 3) :
    Reads (fun rest => decodeSib x b mod (sib :: rest)) (dispBytes mod (bits20 sib))
      fun op => op.length = 1 + dispBytes mod (bits20 sib) := by
  rcases mod_cases hmod with rfl | rfl | rfl
  · by_cases hbase : bits20 sib = 5
    · have hread : (fun rest => decodeSib x b 0 (sib :: rest)) =
          fun rest => (takeDisp32 11 rest).map (.sibNoBase (decodeIndex x sib)) := funext fun _ => if_pos hbase
      rw [hread, hbase]
      exact (reads_takeDisp32 11).map fun _ _ => rfl
    · have hnone : dispBytes 0 (bits20 sib) = 0 := if_neg hbase
      have hread : (fun rest => decodeSib x b 0 (sib :: rest)) =
          fun _ => .ok (.sib (gregNum b (bits20 sib)) (decodeIndex x sib) .none) := funext fun _ => if_neg hbase
      rw [hread, hnone]
      exact reads_nothing rfl
  · exact (reads_takeDisp8 8).map fun _ _ => rfl
  · exact (reads_takeDisp32 11).map fun _ _ => rfl

/-- Bytes that hold the whole operand give one of the length of R60, which hangs on no byte after it. -/
theorem decodeRM_reads {p0 m : Byte} {rest : List Byte} (h : tailBytes m (rest.headD 0) ≤ rest.length) :
    ∃ rm, rmLength rm = tailBytes m (rest.headD 0) ∧
      ∀ others, decodeRM p0 m (rest.take (tailBytes m (rest.headD 0)) ++ others) = .ok rm := by
  by_cases hmod : bits76 m = 3
  · refine ⟨.reg (vregNum (p0.getLsbD 6) (p0.getLsbD 5) (bits20 m)), ?_, fun others => decodeRM_reg _ hmod⟩
    rw [tailBytes_reg _ hmod, rmLength]
  · by_cases hrm : bits20 m = 4
    · rw [tailBytes_sib _ hmod hrm] at h ⊢
      cases rest with
      | nil => exact absurd h (by simp)
      | cons sib rest =>
        simp only [List.headD_cons, List.length_cons] at h ⊢
        obtain ⟨op, hlen, hread⟩ := decodeSib_reads (p0.getLsbD 6) (p0.getLsbD 5) sib hmod
          (rest.take (dispBytes (bits76 m) (bits20 sib))) (List.length_take_of_le (by omega))
        refine ⟨.mem op, hlen, fun others => ?_⟩
        rw [Nat.add_comm, List.take_succ_cons, List.cons_append, decodeRM_sib _ hmod hrm]
        exact congrArg (Except.map RM.mem) (hread others)
    · rw [tailBytes_noSib _ hmod hrm] at h ⊢
      obtain ⟨op, hlen, hread⟩ := decodeNoSib_reads (p0.getLsbD 5) (bits20 m) hmod
        (rest.take (dispBytes (bits76 m) (bits20 m))) (List.length_take_of_le h)
      refine ⟨.mem op, hlen, fun others => ?_⟩
      rw [decodeRM_noSib _ hmod hrm]
      exact congrArg (Except.map RM.mem) (hread others)

theorem decodeRM_enough (p0 : Byte) {m : Byte} {rest : List Byte} (h : tailBytes m (rest.headD 0) ≤ rest.length) :
    ∃ rm, decodeRM p0 m rest = .ok rm := by
  obtain ⟨rm, _, hread⟩ := decodeRM_reads (p0 := p0) h
  exact ⟨rm, by simpa using hread (rest.drop (tailBytes m (rest.headD 0)))⟩

/-- An operand that is read has the length of R60, and its own bytes are enough to read it. -/
theorem decodeRM_ok_length {p0 m : Byte} {rest : List Byte} {rm : RM} (h : decodeRM p0 m rest = .ok rm) :
    rmLength rm = tailBytes m (rest.headD 0) ∧ decodeRM p0 m (rest.take (rmLength rm)) = .ok rm := by
  have henough : tailBytes m (rest.headD 0) ≤ rest.length := Nat.le_of_not_lt fun hshort => by
    rw [decodeRM_short hshort] at h
    cases h
  obtain ⟨rm', hlen, hread⟩ := decodeRM_reads (p0 := p0) henough
  have hall := hread (rest.drop (tailBytes m (rest.headD 0)))
  rw [List.take_append_drop, h] at hall
  cases hall
  exact ⟨hlen, by rw [hlen]; simpa using hread []⟩

/-- Settles O2: the operand that was read, and so the decoding, hangs on its own bytes alone. -/
theorem decodeAnswersWellFormed : Obligations.DecodeAnswersWellFormed := by
  unfold Obligations.DecodeAnswersWellFormed
  intro sae bs i h
  obtain ⟨hwf, hlen⟩ := decode_ok_wellFormed h
  refine ⟨hwf, hlen, ?_⟩
  obtain ⟨p0, p1, p2, op, m, rest, rm, rfl, hfix, hrm, hres⟩ := decode_ok h
  obtain ⟨rfl, _⟩ := decodeReserved_ok hres
  rw [length_eq, Nat.add_comm]
  exact (decode_eq_decodeReserved hfix (decodeRM_ok_length hrm).2).trans hres

/-- Settles O4: the operand that was read has the length of R60, which is 0 where mod = 11. -/
theorem lengthOfDecoded : Obligations.LengthOfDecoded := by
  unfold Obligations.LengthOfDecoded
  intro sae b0 p0 p1 p2 op m rest i h
  have hlen : i.length = 6 + tailBytes m (rest.headD 0) := by
    obtain ⟨_, _, _, _, _, _, rm, hbs, _, hrm, hres⟩ := decode_ok h
    cases hbs
    obtain ⟨rfl, _⟩ := decodeReserved_ok hres
    rw [length_eq, (decodeRM_ok_length hrm).1]
  obtain ⟨h6, h11⟩ := length_bounds i
  exact ⟨hlen, h6, h11, fun hmod => by rw [hlen, tailBytes_reg _ hmod]⟩

/-! ### What a step does with reserved and foreign bytes (30_encoding.md R57 to R59, R62) -/

theorem step_notVgetexpps {s : State} (hmode : s.mode = .bits64) (h : s.fetchDecode = .notVgetexpps) :
    step s = .refused .notVgetexpps := by
  rw [step_of_decode hmode, h]
  rfl

/-- In 64-bit mode, on bytes with the fixed fields whose operand is read, the step runs what the tests on reserved fields answer. -/
theorem step_of_operand {s : State} {p0 p1 p2 op m : Byte} {rest : List Byte} {rm : RM} (hmode : s.mode = .bits64)
    (hcode : s.codeBytes = 0x62 :: p0 :: p1 :: p2 :: op :: m :: rest) (hfix : fixedFieldsMatch p0 p1 op = true)
    (hrm : decodeRM p0 m rest = .ok rm) : step s = runDecoded (decodeReserved s.cfg.saeIgnoresLL p0 p1 p2 m rm) s := by
  rw [step_of_decode hmode, State.fetchDecode, hcode, decode_eq_decodeReserved hfix hrm]

theorem fixedFieldsMatch_0x7D {p0 : Byte} (hp0 : p0.extractLsb' 0 4 = 0b0010#4) : fixedFieldsMatch p0 0x7D 0x42 = true :=
  fixedFieldsMatch_iff.2 ⟨hp0, by decide⟩

theorem decodeReserved_vvvv {p1 : Byte} (sae : Bool) (p0 p2 m : Byte) (rm : RM) (h : p1.extractLsb' 3 4 ≠ 0b1111#4) :
    decodeReserved sae p0 p1 p2 m rm = .ud := if_pos (bne_iff_ne.2 h)

/-- Settles O9: vvvv is the first of the tests on reserved fields, made once the whole instruction is fetched. -/
theorem reservedVvvvRaisesUD : Obligations.ReservedVvvvRaisesUD := by
  unfold Obligations.ReservedVvvvRaisesUD
  intro s p0 p1 p2 m rest hmode hcode hp0 hp1w hp1one hp1pp henough hvvvv
  obtain ⟨rm, hrm⟩ := decodeRM_enough p0 henough
  have hfix := fixedFieldsMatch_iff.2 ⟨hp0, hp1w, hp1one, hp1pp, rfl⟩
  rw [step_of_operand hmode hcode hfix hrm, decodeReserved_vvvv _ _ _ _ _ hvvvv]
  rfl

theorem decodeRM_ok_mem {p0 m : Byte} {rest : List Byte} {rm : RM} (hmod : bits76 m ≠ 3) (h : decodeRM p0 m rest = .ok rm) :
    ∃ op, rm = .mem op := by
  by_cases hrm : bits20 m = 4
  · rw [decodeRM_sib _ hmod hrm] at h
    obtain ⟨op, _, rfl⟩ := except_map_ok h
    exact ⟨op, rfl⟩
  · rw [decodeRM_noSib _ hmod hrm] at h
    obtain ⟨op, _, rfl⟩ := except_map_ok h
    exact ⟨op, rfl⟩

theorem selectMem_ll_three {f : Fields} (op : MemOp) (hll : f.ll = 3#2) : selectMem f op = .ud := by
  simp [selectMem, hll]

theorem selectReg_ll_three {f : Fields} (sae : Bool) (r : VReg) (hll : f.ll = 3#2) (hb : f.b = false) :
    selectReg sae f r = .ud := by
  simp [selectReg, hll, hb]

theorem selectForm_sae_other_ll {f : Fields} {r : VReg} (sae : Bool) (hrm : f.rm = .reg r) (hll : f.ll ≠ 2#2) (hb : f.b = true) :
    selectForm sae f = if sae then .ok (.vgetexpps512RegSae f.d r f.aaa f.z) else .saeWithOtherLL := by
  cases sae <;> simp [selectForm, selectReg, hrm, hll, hb]

/-- L'L = 11 selects no form, except for a register form with b = 1 (30_encoding.md R54). -/
theorem selectForm_ll_three {sae : Bool} {p0 p2 m : Byte} {rest : List Byte} {rm : RM} (hrm : decodeRM p0 m rest = .ok rm)
    (hll : p2.extractLsb' 5 2 = 3#2) (hsae : ¬ (bits76 m = 3#2 ∧ p2.getLsbD 4 = true)) :
    selectForm sae (decodedFields p0 p2 m rm) = .ud := by
  by_cases hmod : bits76 m = 3
  · rw [decodeRM_reg _ hmod] at hrm
    cases hrm
    exact selectReg_ll_three sae _ hll (Bool.eq_false_iff.2 fun hb => hsae ⟨hmod, hb⟩)
  · obtain ⟨op, rfl⟩ := decodeRM_ok_mem hmod hrm
    exact selectMem_ll_three op hll

/-- Settles O10: each of the three settings ends the tests on reserved fields in `#UD`, whichever comes first. -/
theorem otherReservedSettingsRaiseUD : Obligations.OtherReservedSettingsRaiseUD := by
  unfold Obligations.OtherReservedSettingsRaiseUD
  intro s p0 p2 m rest hmode hcode hp0 henough hset
  obtain ⟨rm, hrm⟩ := decodeRM_enough p0 henough
  have hud : decodeReserved s.cfg.saeIgnoresLL p0 0x7D p2 m rm = .ud := by
    rw [decodeReserved_0x7D]
    split
    · rfl
    · rename_i hearlier
      rcases hset with hv | hz | ⟨hll, hsae⟩
      · exact absurd (.inl hv) hearlier
      · exact absurd (.inr hz) hearlier
      · exact selectForm_ll_three hrm hll hsae
  rw [step_of_operand hmode hcode (fixedFieldsMatch_0x7D hp0) hrm, hud]
  rfl

/-- Settles O11: the other tests pass, and a register form with b = 1 and L'L other than 10 is left to SAE_IGNORES_LL. -/
theorem saeWithOtherLL : Obligations.SaeWithOtherLL := by
  unfold Obligations.SaeWithOtherLL
  intro s p0 p2 m rest hmode hcode hp0 hmod hb hll hv hz
  have hearlier : ¬ (p2.getLsbD 3 = false ∨ (p2.getLsbD 7 = true ∧ bits20 p2 = 0)) := by
    rintro (hv' | ⟨hz', haaa⟩)
    · rw [hv] at hv'
      cases hv'
    · exact hz hz' haaa
  rw [step_of_operand hmode hcode (fixedFieldsMatch_0x7D hp0) (decodeRM_reg rest hmod), decodeReserved_0x7D, if_neg hearlier,
    selectForm_sae_other_ll _ rfl hll hb]
  exact ⟨fun hsae => by rw [hsae]; rfl, fun hsae => by rw [hsae]; rfl⟩

theorem decode_foreign_first_byte {sae : Bool} {b0 : Byte} (rest : List Byte) (h : b0 ≠ 0x62) :
    decode sae (b0 :: rest) = .notVgetexpps := if_pos (bne_iff_ne.2 h)

theorem decode_fixed_mismatch {sae : Bool} {p0 p1 p2 op m : Byte} {rest : List Byte} (h : ¬ fixedFieldsMatch p0 p1 op = true) :
    decode sae (0x62 :: p0 :: p1 :: p2 :: op :: m :: rest) = .notVgetexpps := by
  simp [decode, h]

/-- Settles O12: byte 0 and the fixed fields are tested before any other field. -/
theorem otherBytesRefused : Obligations.OtherBytesRefused := by
  unfold Obligations.OtherBytesRefused
  constructor
  · intro s b0 rest hmode hcode hb0
    exact step_notVgetexpps hmode (by rw [State.fetchDecode, hcode, decode_foreign_first_byte rest hb0])
  · intro s p0 p1 p2 op m rest hmode hcode hmismatch
    refine step_notVgetexpps hmode ?_
    rw [State.fetchDecode, hcode, decode_fixed_mismatch]
    rw [fixedFieldsMatch_iff]
    rintro ⟨hp0, hp1w, hp1one, hp1pp, hop⟩
    rcases hmismatch with h | h | h | h | h
    · exact h hp0
    · exact absurd (h.symm.trans hp1w) (by decide)
    · exact absurd (h.symm.trans hp1one) (by decide)
    · exact h hp1pp
    · exact h hop

/-! ### A register form has one word (30_encoding.md R45, R46, R48) -/

theorem vregNum_fields (bar4 bar3 : Bool) (low : BitVec 3) :
    (!(vregNum bar4 bar3 low).getLsbD 4) = bar4 ∧ (!(vregNum bar4 bar3 low).getLsbD 3) = bar3 ∧
    (vregNum bar4 bar3 low).extractLsb' 0 3 = low := by
  revert low; cases bar4 <;> cases bar3 <;> decide

/-! Each byte is put together again from its fields. -/

theorem p0Byte_of_fields {p0 : Byte} (m : Byte) (h : p0.extractLsb' 0 4 = 0b0010#4) :
    p0Byte (destOf p0 m) (p0.getLsbD 6) (p0.getLsbD 5) = p0 := by
  obtain ⟨h4, h3, -⟩ := vregNum_fields (p0.getLsbD 4) (p0.getLsbD 7) (bits53 m)
  rw [p0Byte, destOf, h3, h4]
  clear h3 h4
  revert p0; decide +kernel

theorem p1_eq_0x7D {p1 : Byte} (hw : p1.getLsbD 7 = false) (hone : p1.getLsbD 2 = true) (hpp : p1.extractLsb' 0 2 = 0b01#2)
    (hvvvv : p1.extractLsb' 3 4 = 0b1111#4) : p1 = 0x7D := by
  revert p1; decide +kernel

theorem p2Byte_of_fields {p2 : Byte} (h : p2.getLsbD 3 = true) :
    p2Byte (p2.getLsbD 7) (p2.extractLsb' 5 2) (p2.getLsbD 4) (bits20 p2) = p2 := by
  revert p2; decide +kernel

theorem packByte_of_fields (m : Byte) : packByte (bits76 m) (bits53 m) (bits20 m) = m := by
  revert m; decide +kernel

theorem ll_cases (ll : BitVec 2) : ll = 0 ∨ ll = 1 ∨ ll = 2 ∨ ll = 3 := by revert ll; decide

/-- With SAE_IGNORES_LL false a form is selected by its own fields only. -/
theorem selectForm_false_ok {f : Fields} {i : Instr} (h : selectForm false f = .ok i) : i.fields = f := by
  obtain ⟨ll, b, z, aaa, d, rm⟩ := f
  cases rm with
  | reg r =>
    cases b with
    | false => rcases ll_cases ll with rfl | rfl | rfl | rfl <;> cases h <;> rfl
    | true =>
      by_cases hll : ll = 2
      · subst hll
        cases h
        rfl
      · rw [selectForm_sae_other_ll false rfl hll rfl] at h
        cases h
  | mem m => rcases ll_cases ll with rfl | rfl | rfl | rfl <;> cases b <;> cases h <;> rfl

/-- What passes the tests on reserved fields has vvvv = 1111 and `V̄'` = 1, and is the form the fields select. -/
theorem decodeReserved_ok_fields {sae : Bool} {p0 p1 p2 m : Byte} {rm : RM} {i : Instr}
    (h : decodeReserved sae p0 p1 p2 m rm = .ok i) :
    p1.extractLsb' 3 4 = 0b1111#4 ∧ p2.getLsbD 3 = true ∧ selectForm sae (decodedFields p0 p2 m rm) = .ok i := by
  unfold decodeReserved at h
  split at h
  · cases h
  · rename_i hvvvv
    split at h
    · cases h
    · rename_i hv
      split at h
      · cases h
      · exact ⟨by simpa using hvvvv, by simpa using hv, h⟩

theorem encode_reg {i : Instr} {r : VReg} (h : i.fields.rm = .reg r) : encode i =
    [0x62, p0Byte i.fields.d (!r.getLsbD 4) (!r.getLsbD 3), 0x7D, p2Byte i.fields.z i.fields.ll i.fields.b i.fields.aaa, 0x42,
      packByte 3 (i.fields.d.extractLsb' 0 3) (r.extractLsb' 0 3)] := by
  rw [encode, encodeFields, h]
  rfl

theorem decodeRM_ok_reg {p0 m : Byte} {rest : List Byte} {r : VReg} (h : decodeRM p0 m rest = .ok (.reg r)) :
    bits76 m = 3 ∧ r = vregNum (p0.getLsbD 6) (p0.getLsbD 5) (bits20 m) := by
  by_cases hmod : bits76 m = 3
  · rw [decodeRM_reg _ hmod] at h
    cases h
    exact ⟨hmod, rfl⟩
  · obtain ⟨op, hop⟩ := decodeRM_ok_mem hmod h
    cases hop

/-- A register form that is decoded with SAE_IGNORES_LL false stands in the bytes as its encoding. -/
theorem take_six_of_register {bs : List Byte} {i : Instr} {r : VReg} (h : decode false bs = .ok i) (hreg : i.fields.rm = .reg r) :
    bs.take 6 = encode i := by
  obtain ⟨p0, p1, p2, op, m, rest, rm, rfl, hfix, hrm, hres⟩ := decode_ok h
  obtain ⟨hp0, hp1w, hp1one, hp1pp, rfl⟩ := fixedFieldsMatch_iff.1 hfix
  obtain ⟨hvvvv, hv, hsel⟩ := decodeReserved_ok_fields hres
  have hf := selectForm_false_ok hsel
  obtain rfl : rm = .reg r := by rw [hf] at hreg; exact hreg
  obtain ⟨hmod, rfl⟩ := decodeRM_ok_reg hrm
  obtain ⟨hx, hb, hlow⟩ := vregNum_fields (p0.getLsbD 6) (p0.getLsbD 5) (bits20 m)
  obtain ⟨_, _, hd⟩ := vregNum_fields (p0.getLsbD 4) (p0.getLsbD 7) (bits53 m)
  rw [encode_reg hreg, hf, decodedFields, hx, hb, hlow, p0Byte_of_fields m hp0, p2Byte_of_fields hv, destOf, hd, ← hmod,
    packByte_of_fields, p1_eq_0x7D hp1w hp1one hp1pp hvvvv]
  rfl

/-- Settles O3: every bit of the six bytes is a fixed field or a field of the instruction. -/
theorem encodeDecodeRegisterForms : Obligations.EncodeDecodeRegisterForms := by
  unfold Obligations.EncodeDecodeRegisterForms
  intro bs i d r aaa z vl h hform
  refine take_six_of_register (r := r) h ?_
  rcases hform with rfl | rfl
  · cases vl <;> rfl
  · rfl

/-! ### The rows of the opcode table (30_encoding.md R63) -/

theorem tableWord_and (a0 a1 a2 a3 a4 a5 b0 b1 b2 b3 b4 b5 : Byte) :
    tableWord a0 a1 a2 a3 a4 a5 &&& tableWord b0 b1 b2 b3 b4 b5 =
      tableWord (a0 &&& b0) (a1 &&& b1) (a2 &&& b2) (a3 &&& b3) (a4 &&& b4) (a5 &&& b5) := by
  change (a0 ++ a1 ++ a2 ++ a3 ++ a4 ++ a5 : BitVec (8 + 8 + 8 + 8 + 8 + 8)) &&& (b0 ++ b1 ++ b2 ++ b3 ++ b4 ++ b5) = _
  simp only [BitVec.and_append]
  rfl

theorem bitVec_append_inj {v w : Nat} {a b : BitVec v} {c d : BitVec w} (h : a ++ c = b ++ d) : a = b ∧ c = d := by
  have hhi := congrArg (BitVec.extractLsb' w v) h
  have hlo := congrArg (BitVec.extractLsb' 0 w) h
  rw [BitVec.extractLsb'_append_eq_left, BitVec.extractLsb'_append_eq_left] at hhi
  rw [BitVec.extractLsb'_append_eq_right, BitVec.extractLsb'_append_eq_right] at hlo
  exact ⟨hhi, hlo⟩

theorem tableWord_inj {a0 a1 a2 a3 a4 a5 b0 b1 b2 b3 b4 b5 : Byte} :
    tableWord a0 a1 a2 a3 a4 a5 = tableWord b0 b1 b2 b3 b4 b5 ↔
      a0 = b0 ∧ a1 = b1 ∧ a2 = b2 ∧ a3 = b3 ∧ a4 = b4 ∧ a5 = b5 := by
  constructor
  · intro h
    obtain ⟨h, h5⟩ := bitVec_append_inj h
    obtain ⟨h, h4⟩ := bitVec_append_inj h
    obtain ⟨h, h3⟩ := bitVec_append_inj h
    obtain ⟨h, h2⟩ := bitVec_append_inj h
    obtain ⟨h0, h1⟩ := bitVec_append_inj h
    exact ⟨h0, h1, h2, h3, h4, h5⟩
  · rintro ⟨rfl, rfl, rfl, rfl, rfl, rfl⟩
    rfl

theorem tableWord_mod (b0 b1 b2 b3 b4 b5 : Byte) : (tableWord b0 b1 b2 b3 b4 b5).extractLsb' 6 2 = bits76 b5 :=
  BitVec.extractLsb'_append_eq_of_add_le (by decide)

/-- The row of the forms with the given L'L and b, of a memory or of a register operand. -/
def formRow (ll : BitVec 2) (b memory : Bool) : FormRow :=
  { pat := tableWord 0x62 0x02 0x05 (p2Byte false ll b 0 &&& 0x70) 0x42 (if memory then 0 else 0xC0)
    mask := tableWord 0xFF 0x0F 0x87 0x70 0xFF (if memory then 0 else 0xC0)
    memory := memory }

/-- The operand is in memory. -/
def rmIsMem : RM → Bool
  | .reg _ => false
  | .mem _ => true

theorem row_eq (i : Instr) : i.row = formRow i.fields.ll i.fields.b (rmIsMem i.fields.rm) := by
  cases i <;> simp only [Instr.row, Instr.fields, rmIsMem] <;> decide +kernel

theorem formRow_inj {ll ll' : BitVec 2} {b b' memory memory' : Bool} :
    formRow ll b memory = formRow ll' b' memory' ↔ ll = ll' ∧ b = b' ∧ memory = memory' := by
  revert ll ll' b b' memory memory'; decide +kernel

theorem p0Byte_and_0x0F (d : VReg) (xbar bbar : Bool) : p0Byte d xbar bbar &&& 0x0F = 0x02 := by
  revert d xbar bbar; decide +kernel

theorem p2Byte_and_0x70 {z b b' : Bool} {ll ll' : BitVec 2} {aaa : KReg} :
    p2Byte z ll b aaa &&& 0x70 = p2Byte false ll' b' 0 &&& 0x70 ↔ ll' = ll ∧ b' = b := by
  revert z b b' ll ll' aaa; decide +kernel

theorem packByte_and_0xC0 {mod : BitVec 2} {mid low : BitVec 3} : packByte mod mid low &&& 0xC0#8 = 0xC0#8 ↔ mod = 3#2 := by
  revert mod mid low; decide +kernel

/-- A row matches the six bytes of an encoding exactly where L'L, b and the kind of operand are its own. -/
theorem formRow_holds_iff {ll ll' : BitVec 2} {b b' memory : Bool} (d : VReg) (xbar bbar z : Bool) (aaa : KReg) (mod : BitVec 2)
    (mid low : BitVec 3) : (formRow ll' b' memory).holds
      (tableWord 0x62 (p0Byte d xbar bbar) 0x7D (p2Byte z ll b aaa) 0x42 (packByte mod mid low)) = true ↔
    ll' = ll ∧ b' = b ∧ memory = (mod != 3#2) := by
  rw [FormRow.holds, formRow, tableWord_and, tableWord_mod, bits76_packByte, p0Byte_and_0x0F, Bool.and_eq_true, beq_iff_eq,
    tableWord_inj, p2Byte_and_0x70]
  cases memory with
  | true => simp [and_assoc]
  | false => simp [packByte_and_0xC0, and_assoc]

theorem encodeRM_mod (rm : RM) : ((encodeRM rm).mod != 3#2) = rmIsMem rm := by
  cases rm with
  | reg s => rfl
  | mem op => exact bne_iff_ne.2 (encodeRM_mem_mod op)

/-- Settles O5: the masked bits of an encoding are L'L, b and, for a register form, mod, and these are the data that a row is made of. -/
theorem encodingMatchesItsRowOnly : Obligations.EncodingMatchesItsRowOnly := by
  unfold Obligations.EncodingMatchesItsRowOnly
  intro i j b0 b1 b2 b3 b4 b5 rest _ h
  cases h
  rw [row_eq i, row_eq j, formRow_holds_iff, formRow_inj, encodeRM_mod]

/-! ### Effective addresses (30_encoding.md R49 to R53, decision D17) -/

/-- A scaled displacement, as a number. -/
theorem dispTerm_disp8 (n : Nat) (d : BitVec 8) : dispTerm n (.disp8 d) = BitVec.ofInt 64 (n * d.toInt) := by
  rw [dispTerm, BitVec.ofInt_mul, BitVec.ofInt_natCast]
  rfl

theorem indexTerm_scaled (s : State) (x : GReg) (scale : BitVec 2) :
    indexTerm s (.scaled x scale) = s.readGpr x * BitVec.ofNat 64 (2 ^ scale.toNat) := by
  have hpow : BitVec.twoPow 64 scale.toNat = BitVec.ofNat 64 (2 ^ scale.toNat) :=
    BitVec.eq_of_toNat_eq (by rw [BitVec.toNat_twoPow, BitVec.toNat_ofNat])
  rw [indexTerm, BitVec.shiftLeft_eq_mul_twoPow, hpow]

theorem effectiveAddress_sib (n len : Nat) (s : State) (r : GReg) (ix : Index) (disp : Disp) :
    effectiveAddress n len s (.sib r ix disp) = effectiveAddress n len s (.base r disp) + indexTerm s ix := by
  rw [effectiveAddress, effectiveAddress, BitVec.add_assoc, BitVec.add_comm (indexTerm s ix), ← BitVec.add_assoc]

/-- Settles O43: each row is the sum of a base, an index term and a displacement term, and the last two are the numbers of R50 and R53. -/
theorem effectiveAddresses : Obligations.EffectiveAddresses := by
  unfold Obligations.EffectiveAddresses
  intro n len s r x scale d8 d disp
  refine ⟨BitVec.add_zero _, ?_, rfl, rfl, ?_, ?_, BitVec.zero_add _, ?_⟩
  · rw [effectiveAddress, dispTerm_disp8]
  · rw [effectiveAddress_sib]
    exact BitVec.add_zero _
  · rw [effectiveAddress_sib, indexTerm_scaled]
  · rw [effectiveAddress, indexTerm_scaled]
    rfl

theorem operandRange_fullForm (vl : VecLen) (d : VReg) (m : MemOp) (aaa : KReg) (z : Bool) (s : State) :
    operandRange (fullForm vl d m aaa z) s = some (effectiveAddress (4 * kl vl) (6 + m.length) s m, 4 * kl vl) := by
  cases vl <;> rfl

theorem operandRange_bcstForm (vl : VecLen) (d : VReg) (m : MemOp) (aaa : KReg) (z : Bool) (s : State) :
    operandRange (bcstForm vl d m aaa z) s = some (effectiveAddress 4 (6 + m.length) s m, 4) := by
  cases vl <;> rfl

/-- Settles O44: the operand's range is the effective address and the size of the form, and N is that size. -/
theorem disp8CountsInUnitsOfN : Obligations.Disp8CountsInUnitsOfN := by
  unfold Obligations.Disp8CountsInUnitsOfN
  intro vl d r d8 aaa z s
  rw [operandRange_fullForm, operandRange_bcstForm, effectiveAddress, effectiveAddress, dispTerm_disp8, dispTerm_disp8]
  exact ⟨rfl, rfl⟩

/-- Settles O45: a RIP-relative form is 10 bytes long, and the address counts from the byte after it. -/
theorem ripRelative : Obligations.RipRelative := by
  unfold Obligations.RipRelative
  intro vl d d32 aaa z s
  rw [operandRange_fullForm, operandRange_bcstForm]
  exact ⟨rfl, rfl⟩

end Sys2Proof.Proofs
end

section
/-! PROOFS of the statements of 40_getexp_element.md, and the laws they rest on. -/

namespace Sys2Proof.Proofs

open Sys2Proof.Machine

/-! ### Fields and classes of an element (40_getexp_element.md R68, R69) -/

theorem isZero_iff (x : Elem) : isZero x = true ↔ biasedExp x = 0 ∧ fraction x = 0 := by simp [isZero]

theorem isDenormal_iff (x : Elem) : isDenormal x = true ↔ biasedExp x = 0 ∧ fraction x ≠ 0 := by simp [isDenormal]

theorem isNormal_iff (x : Elem) : isNormal x = true ↔ biasedExp x ≠ 0 ∧ biasedExp x ≠ 255 := by simp [isNormal]

theorem isInf_iff (x : Elem) : isInf x = true ↔ biasedExp x = 255 ∧ fraction x = 0 := by simp [isInf]

theorem isQNaN_iff (x : Elem) : isQNaN x = true ↔ biasedExp x = 255 ∧ (fraction x).getLsbD 22 = true := by simp [isQNaN]

theorem isSNaN_iff (x : Elem) :
    isSNaN x = true ↔ biasedExp x = 255 ∧ fraction x ≠ 0 ∧ (fraction x).getLsbD 22 = false := by simp [isSNaN, and_assoc]

theorem fraction_ne_zero_of_bit {x : Elem} {b : Nat} (h : (fraction x).getLsbD b = true) : fraction x ≠ 0 := by
  intro h0
  simp [h0] at h

/-- A NaN, signalling or quiet, is an element with e = 255 and f ≠ 0. -/
theorem isNaN_iff (x : Elem) : isSNaN x = true ∨ isQNaN x = true ↔ biasedExp x = 255 ∧ fraction x ≠ 0 := by
  rw [isSNaN_iff, isQNaN_iff]
  constructor
  · rintro (⟨he, hf, _⟩ | ⟨he, hbit⟩)
    · exact ⟨he, hf⟩
    · exact ⟨he, fraction_ne_zero_of_bit hbit⟩
  · rintro ⟨he, hf⟩
    cases hbit : (fraction x).getLsbD 22 with
    | false => exact .inl ⟨he, hf, rfl⟩
    | true => exact .inr ⟨he, rfl⟩

theorem biasedExp_toNat (x : Elem) : (biasedExp x).toNat = x.toNat / 2 ^ 23 % 2 ^ 8 := by
  rw [biasedExp, BitVec.extractLsb'_toNat, Nat.shiftRight_eq_div_pow]

/-- The element with a given sign, biased exponent and fraction. -/
def ofFields (sign : Bool) (e : BitVec 8) (f : BitVec 23) : Elem := BitVec.ofBool sign ++ e ++ f

theorem getLsbD_ofFields (sign : Bool) (e : BitVec 8) (f : BitVec 23) (b : Nat) :
    (ofFields sign e f).getLsbD b =
      if b < 23 then f.getLsbD b else if b < 31 then e.getLsbD (b - 23) else decide (b = 31) && sign := by
  rw [ofFields, BitVec.getLsbD_append, BitVec.getLsbD_append]
  by_cases hb : b < 23
  · simp [hb]
  · by_cases hb' : b < 31
    · simp [hb, hb', show b - 23 < 8 by omega]
    · simp [hb, hb', show ¬ b - 23 < 8 by omega, BitVec.getLsbD_ofBool, show b - 23 - 8 = 0 ↔ b = 31 by omega]

@[simp] theorem biasedExp_ofFields (sign : Bool) (e : BitVec 8) (f : BitVec 23) : biasedExp (ofFields sign e f) = e := by
  apply BitVec.eq_of_getLsbD_eq
  intro b hb
  rw [biasedExp, BitVec.getLsbD_extractLsb', getLsbD_ofFields]
  simp [hb, show ¬ 23 + b < 23 by omega, show 23 + b < 31 by omega]

@[simp] theorem fraction_ofFields (sign : Bool) (e : BitVec 8) (f : BitVec 23) : fraction (ofFields sign e f) = f := by
  apply BitVec.eq_of_getLsbD_eq
  intro b hb
  rw [fraction, BitVec.getLsbD_extractLsb', getLsbD_ofFields]
  simp [hb]

@[simp] theorem sign_ofFields (sign : Bool) (e : BitVec 8) (f : BitVec 23) : (ofFields sign e f).getLsbD 31 = sign := by
  rw [getLsbD_ofFields]
  rfl

/-- An element is put together again from its three fields. -/
theorem ofFields_fields (x : Elem) : ofFields (x.getLsbD 31) (biasedExp x) (fraction x) = x := by
  apply BitVec.eq_of_getLsbD_eq
  intro b hb
  rw [getLsbD_ofFields, biasedExp, fraction, BitVec.getLsbD_extractLsb', BitVec.getLsbD_extractLsb']
  split
  · simp [*]
  · split
    · simp [show b - 23 < 8 by omega, show 23 + (b - 23) = b by omega]
    · simp [show b = 31 by omega]

/-- The two infinities are the only elements of their class. -/
theorem eq_inf_of_isInf {x : Elem} (h : isInf x = true) : x = plusInf ∨ x = minusInf := by
  obtain ⟨he, hf⟩ := (isInf_iff x).1 h
  rw [← ofFields_fields x, he, hf]
  cases x.getLsbD 31 with
  | false => exact .inl (by decide)
  | true => exact .inr (by decide)

/-- Settles O25: the classes are told apart by e = 0, e = 255, f = 0 and, for a NaN, fraction bit 22. -/
theorem classesPartition : Obligations.ClassesPartition := by
  unfold Obligations.ClassesPartition
  intro x
  have hexp : ((biasedExp x == 0) && (biasedExp x == 255)) = false := by
    cases h : biasedExp x == 0 with
    | false => rfl
    | true => rw [eq_of_beq h]; rfl
  have hfrac : ((fraction x == 0) && (fraction x).getLsbD 22) = false := by
    cases h : fraction x == 0 with
    | false => rfl
    | true => rw [eq_of_beq h]; rfl
  simp only [isZero, isDenormal, isNormal, isInf, isSNaN, isQNaN, bne]
  revert hexp hfrac
  generalize (biasedExp x == 0) = e0
  generalize (biasedExp x == 255) = e255
  generalize (fraction x == 0) = f0
  generalize (fraction x).getLsbD 22 = f22
  revert e0 e255 f0 f22
  decide

/-! ### GetExpSP, class by class (40_getexp_element.md R70) -/

theorem biasedExp_ne_255 {x : Elem} (he : biasedExp x = 0) : biasedExp x ≠ 255 := by
  rw [he]
  decide

theorem getExpSP_of_nan {x : Elem} (he : biasedExp x = 255) (hf : fraction x ≠ 0) (daz : Bool) :
    getExpSP x daz = { res := qnanFn x, ie := !(fraction x).getLsbD 22, de := false } := if_pos ⟨he, hf⟩

theorem getExpSP_of_isInf {x : Elem} (h : isInf x = true) (daz : Bool) :
    getExpSP x daz = { res := plusInf, ie := false, de := false } := by
  obtain ⟨he, hf⟩ := (isInf_iff x).1 h
  rw [getExpSP, if_neg fun hnan => hnan.2 hf, if_pos he]

theorem getExpSP_of_zero {x : Elem} {daz : Bool} (he : biasedExp x = 0) (h : fraction x = 0 ∨ daz = true) :
    getExpSP x daz = { res := minusInf, ie := false, de := false } := by
  have he' := biasedExp_ne_255 he
  rw [getExpSP, if_neg fun hnan => he' hnan.1, if_neg he', if_pos ⟨he, h⟩]

theorem getExpSP_of_isDenormal {x : Elem} (h : isDenormal x = true) :
    getExpSP x false = { res := cvtInt32ToSP ((topBit (fraction x) 23 : Int) - 149), ie := false, de := true } := by
  obtain ⟨he, hf⟩ := (isDenormal_iff x).1 h
  have he' := biasedExp_ne_255 he
  have hzero : ¬ (fraction x = 0 ∨ false = true) := not_or.2 ⟨hf, Bool.false_ne_true⟩
  rw [getExpSP, if_neg fun hnan => he' hnan.1, if_neg he', if_neg fun hz => hzero hz.2, if_pos he]

theorem getExpSP_of_isNormal {x : Elem} (h : isNormal x = true) (daz : Bool) :
    getExpSP x daz = { res := cvtInt32ToSP (((biasedExp x).toNat : Int) - 127), ie := false, de := false } := by
  obtain ⟨he, he'⟩ := (isNormal_iff x).1 h
  rw [getExpSP, if_neg fun hnan => he' hnan.1, if_neg he', if_neg fun hz => he hz.1, if_neg he]

/-- Settles O18: it is the equation of `getExpSP` for the infinities. -/
theorem infiniteSource : Obligations.InfiniteSource := by
  unfold Obligations.InfiniteSource
  intro x daz h
  exact getExpSP_of_isInf h daz

/-- Settles O19: both kinds of element have e = 0, and f = 0 or DAZ = 1. -/
theorem zeroSource : Obligations.ZeroSource := by
  unfold Obligations.ZeroSource
  rintro x daz (hzero | ⟨hden, hdaz⟩)
  · obtain ⟨he, hf⟩ := (isZero_iff x).1 hzero
    exact getExpSP_of_zero he (.inl hf)
  · obtain ⟨he, _⟩ := (isDenormal_iff x).1 hden
    exact getExpSP_of_zero he (.inr hdaz)

/-- Settles O24: the requests are `getExpSP_ie` and `getExpSP_de`; an SNaN has e = 255 and a denormal e = 0. -/
theorem flagRequests : Obligations.FlagRequests := by
  unfold Obligations.FlagRequests
  intro x daz
  rw [getExpSP_ie, getExpSP_de, Bool.and_eq_true, Bool.not_eq_true']
  refine ⟨Iff.rfl, Iff.rfl, ?_⟩
  rintro ⟨hsnan, hden, _⟩
  obtain ⟨he, _⟩ := (isSNaN_iff x).1 hsnan
  obtain ⟨he', _⟩ := (isDenormal_iff x).1 hden
  exact absurd (he.symm.trans he') (by decide)

/-! ### The quieted form of a NaN (40_getexp_element.md R71, decision D22) -/

theorem getLsbD_qnanFn (x : Elem) (b : Nat) : (qnanFn x).getLsbD b = (x.getLsbD b || decide (b = 22)) := by
  have hbit : (0x00400000 : Elem).getLsbD b = decide (b = 22) := by
    rw [show (0x00400000 : Elem) = BitVec.twoPow 32 22 by decide, BitVec.getLsbD_twoPow]
    simp [eq_comm]
  rw [qnanFn, BitVec.getLsbD_or, hbit]

theorem biasedExp_qnanFn (x : Elem) : biasedExp (qnanFn x) = biasedExp x := by
  apply BitVec.eq_of_getLsbD_eq
  intro b _
  rw [biasedExp, biasedExp, BitVec.getLsbD_extractLsb', BitVec.getLsbD_extractLsb', getLsbD_qnanFn,
    decide_eq_false (show ¬ 23 + b = 22 by omega), Bool.or_false]

theorem isQNaN_qnanFn {x : Elem} (he : biasedExp x = 255) : isQNaN (qnanFn x) = true := by
  rw [isQNaN_iff, biasedExp_qnanFn, fraction, BitVec.getLsbD_extractLsb', getLsbD_qnanFn]
  exact ⟨he, by simp⟩

theorem qnanFn_of_isQNaN {x : Elem} (h : isQNaN x = true) : qnanFn x = x := by
  obtain ⟨_, hbit⟩ := (isQNaN_iff x).1 h
  apply BitVec.eq_of_getLsbD_eq
  intro b _
  rw [getLsbD_qnanFn]
  by_cases hb : b = 22
  · subst hb
    simpa [fraction] using hbit
  · simp [hb]

/-- Settles O17: the result is `qnanFn x`, which sets bit 22 and keeps every other bit. -/
theorem naNSource : Obligations.NaNSource := by
  unfold Obligations.NaNSource
  intro x daz h
  obtain ⟨he, hf⟩ := (isNaN_iff x).1 h
  rw [getExpSP_ie, getExpSP_of_nan he hf]
  refine ⟨isQNaN_qnanFn he, fun b hb => ?_, qnanFn_of_isQNaN, rfl, rfl⟩
  rw [getLsbD_qnanFn, decide_eq_false hb, Bool.or_false]

/-! ### The top 1 bit of a fraction (40_getexp_element.md R74, R76) -/

/-- `p` is the index of the most significant 1 bit of `f`. -/
def IsTopBit (f : BitVec 23) (p : Nat) : Prop := f.getLsbD p = true ∧ ∀ b, p < b → f.getLsbD b = false

theorem IsTopBit.lt {f : BitVec 23} {p : Nat} (h : IsTopBit f p) : p < 23 := BitVec.lt_of_getLsbD h.1

theorem isTopBit_log2 {f : BitVec 23} (hf : f ≠ 0) : IsTopBit f f.toNat.log2 := by
  have hf' : f.toNat ≠ 0 := fun h => hf (BitVec.eq_of_toNat_eq h)
  refine ⟨Nat.testBit_log2 hf', fun b hb => Nat.testBit_lt_two_pow ?_⟩
  exact Nat.lt_of_lt_of_le Nat.lt_log2_self (Nat.pow_le_pow_right (by decide) hb)

theorem IsTopBit.topBit_eq {f : BitVec 23} {p n : Nat} (h : IsTopBit f p) (hn : p < n) : topBit f n = p := by
  induction n with
  | zero => omega
  | succ n ih =>
    rw [topBit]
    by_cases hp : p = n
    · rw [← hp, if_pos h.1]
    · rw [h.2 n (by omega), if_neg Bool.false_ne_true, ih (by omega)]

theorem topBit_eq_log2 {f : BitVec 23} (hf : f ≠ 0) : topBit f 23 = f.toNat.log2 :=
  (isTopBit_log2 hf).topBit_eq (isTopBit_log2 hf).lt

theorem IsTopBit.shiftLeft_one {f : BitVec 23} {p : Nat} (h : IsTopBit f p) (hp : p < 22) : IsTopBit (f <<< 1) (p + 1) := by
  obtain ⟨htop, habove⟩ := h
  constructor
  · rw [BitVec.getLsbD_shiftLeft, Nat.add_sub_cancel, htop]
    simp [show p + 1 < 23 by omega]
  · intro b hb
    rw [BitVec.getLsbD_shiftLeft, habove (b - 1) (by omega), Bool.and_false]

/-- The loop counts down once for the top bit and once for each place it has to move up to bit 22. -/
theorem IsTopBit.normalizeLoop_eq {fuel p : Nat} {f : BitVec 23} (h : IsTopBit f p) (hfuel : 23 ≤ fuel + p) (e : Int) :
    normalizeLoop fuel f e = e - (23 - p) := by
  induction fuel generalizing f p e with
  | zero => have := h.lt; omega
  | succ fuel ih =>
    have hlt := h.lt
    rw [normalizeLoop]
    by_cases hp : p = 22
    · subst hp
      rw [if_pos h.1]
      omega
    · rw [h.2 22 (by omega), if_neg Bool.false_ne_true, ih (h.shiftLeft_one (by omega)) (by omega)]
      omega

theorem IsTopBit.normalizeExpTiny_eq {f : BitVec 23} {p : Nat} (h : IsTopBit f p) : normalizeExpTiny f = (p : Int) - 22 := by
  rw [normalizeExpTiny, h.normalizeLoop_eq (Nat.le_add_right _ _)]
  omega

/-- Settles O22: each turn moves the top bit up one place, until it is bit 22. -/
theorem normalizeLoop : Obligations.NormalizeLoop := by
  unfold Obligations.NormalizeLoop
  intro f p htop habove
  have h : IsTopBit f p := ⟨htop, habove⟩
  have hp := h.lt
  rw [h.normalizeExpTiny_eq]
  omega

/-! ### The conversion of an integer to single precision (40_getexp_element.md R78, decision D23) -/

/-- The fraction of the number `m` with top bit `q`: the bits below `q`, moved up to bit 22. -/
def intFraction (m : Nat) : BitVec 23 := BitVec.ofNat 23 (m - 2 ^ m.log2) <<< (23 - m.log2)

theorem log2_le_23 {m : Nat} (hm : m < 2 ^ 24) : m.log2 ≤ 23 := by
  by_cases h : m = 0
  · subst h; decide
  · exact Nat.le_of_lt_succ ((Nat.log2_lt h).2 hm)

/-- The bits of `m` below its top bit. -/
theorem sub_two_pow_log2_lt {m : Nat} (h : m ≠ 0) : m - 2 ^ m.log2 < 2 ^ m.log2 := by
  have hle := Nat.log2_self_le h
  have hlt : m < 2 ^ (m.log2 + 1) := Nat.lt_log2_self
  omega

theorem intFraction_toNat {m : Nat} (h : m ≠ 0) (hm : m < 2 ^ 24) :
    (intFraction m).toNat = (m - 2 ^ m.log2) * 2 ^ (23 - m.log2) := by
  have hlt := sub_two_pow_log2_lt h
  have hq := log2_le_23 hm
  have hpow : 2 ^ m.log2 * 2 ^ (23 - m.log2) = 2 ^ 23 := by rw [← Nat.pow_add, Nat.add_sub_cancel' hq]
  have hbound : (m - 2 ^ m.log2) * 2 ^ (23 - m.log2) < 2 ^ 23 := by
    rw [← hpow]
    exact Nat.mul_lt_mul_of_pos_right hlt (Nat.two_pow_pos _)
  rw [intFraction, BitVec.toNat_shiftLeft, BitVec.toNat_ofNat, Nat.shiftLeft_eq,
    Nat.mod_eq_of_lt (Nat.lt_of_lt_of_le hlt (Nat.pow_le_pow_right (by decide) hq)), Nat.mod_eq_of_lt hbound]

theorem getLsbD_signMask (c : Prop) [Decidable c] (b : Nat) :
    ((if c then 0x80000000 else 0 : Nat) : Elem).getLsbD b = (decide (b = 31) && decide c) := by
  by_cases hc : c
  · rw [if_pos hc, show ((0x80000000 : Nat) : Elem) = BitVec.twoPow 32 31 by decide, BitVec.getLsbD_twoPow]
    simp [hc, eq_comm]
  · simp [hc]

/-- The three parts that the conversion joins stand in the three fields. -/
theorem cvtInt32ToSP_eq_ofFields {n : Int} (h : n ≠ 0) (hn : n.natAbs < 2 ^ 24) :
    cvtInt32ToSP n = ofFields (decide (n < 0)) (BitVec.ofNat 8 (n.natAbs.log2 + 127)) (intFraction n.natAbs) := by
  rw [cvtInt32ToSP, if_neg h]
  have hlt := sub_two_pow_log2_lt (Int.natAbs_ne_zero.2 h)
  have hq := log2_le_23 hn
  generalize hk : n.natAbs - 2 ^ n.natAbs.log2 = k at hlt
  apply BitVec.eq_of_getLsbD_eq
  intro b hb
  rw [BitVec.getLsbD_or, BitVec.getLsbD_or, getLsbD_signMask, BitVec.getLsbD_shiftLeft, BitVec.getLsbD_shiftLeft,
    BitVec.getLsbD_ofNat, BitVec.getLsbD_ofNat, getLsbD_ofFields, intFraction, hk, BitVec.getLsbD_shiftLeft,
    BitVec.getLsbD_ofNat, BitVec.getLsbD_ofNat]
  by_cases hfrac : b < 23
  · simp [hfrac, hb, show b ≠ 31 by omega, show b - (23 - n.natAbs.log2) < 32 by omega,
      show b - (23 - n.natAbs.log2) < 23 by omega]
  · have hlow : k.testBit (b - (23 - n.natAbs.log2)) = false :=
      Nat.testBit_lt_two_pow (Nat.lt_of_lt_of_le hlt (Nat.pow_le_pow_right (by decide) (by omega)))
    rw [hlow]
    by_cases hexp : b < 31
    · simp [hfrac, hexp, hb, show b ≠ 31 by omega, show b - 23 < 32 by omega, show b - 23 < 8 by omega]
    · have hsign : b = 31 := by omega
      have htop : (n.natAbs.log2 + 127).testBit 8 = false := Nat.testBit_lt_two_pow (by omega)
      subst hsign
      simp [htop]

theorem biasedExp_cvtInt32ToSP {n : Int} (h : n ≠ 0) (hn : n.natAbs < 2 ^ 24) :
    (biasedExp (cvtInt32ToSP n)).toNat = n.natAbs.log2 + 127 := by
  have hq := log2_le_23 hn
  rw [cvtInt32ToSP_eq_ofFields h hn, biasedExp_ofFields, BitVec.toNat_ofNat, Nat.mod_eq_of_lt (by omega)]

theorem sign_cvtInt32ToSP {n : Int} (h : n ≠ 0) (hn : n.natAbs < 2 ^ 24) :
    (cvtInt32ToSP n).getLsbD 31 = decide (n < 0) := by
  rw [cvtInt32ToSP_eq_ofFields h hn, sign_ofFields]

theorem isFinite_cvtInt32ToSP {n : Int} (hn : n.natAbs < 2 ^ 24) : isFinite (cvtInt32ToSP n) = true := by
  by_cases h : n = 0
  · subst h; decide
  · have he := biasedExp_cvtInt32ToSP h hn
    have hq := log2_le_23 hn
    rw [isFinite, bne_iff_ne]
    intro h255
    rw [h255, show (255 : BitVec 8).toNat = 255 from rfl] at he
    omega

/-- The hidden bit and the fraction are `m` moved up to bit 23, and the exponent moves it to its place. -/
theorem scaledAbs_cvtInt32ToSP {n : Int} (h : n ≠ 0) (hn : n.natAbs < 2 ^ 24) :
    scaledAbs (cvtInt32ToSP n) = n.natAbs * 2 ^ 149 := by
  have he := biasedExp_cvtInt32ToSP h hn
  have he0 : biasedExp (cvtInt32ToSP n) ≠ 0 := fun h0 => by rw [h0, show (0 : BitVec 8).toNat = 0 from rfl] at he; omega
  rw [scaledAbs, if_neg he0, he, cvtInt32ToSP_eq_ofFields h hn, fraction_ofFields]
  have hm := Int.natAbs_ne_zero.2 h
  have hq := log2_le_23 hn
  rw [intFraction_toNat hm hn]
  generalize n.natAbs = m at *
  have hle := Nat.log2_self_le hm
  calc (2 ^ 23 + (m - 2 ^ m.log2) * 2 ^ (23 - m.log2)) * 2 ^ (m.log2 + 127 - 1)
      = (2 ^ m.log2 * 2 ^ (23 - m.log2) + (m - 2 ^ m.log2) * 2 ^ (23 - m.log2)) * 2 ^ (m.log2 + 127 - 1) := by
        rw [← Nat.pow_add, Nat.add_sub_cancel' hq]
    _ = m * (2 ^ (23 - m.log2) * 2 ^ (m.log2 + 127 - 1)) := by
        rw [← Nat.add_mul, Nat.add_sub_cancel' hle, Nat.mul_assoc]
    _ = m * 2 ^ 149 := by
        rw [← Nat.pow_add, show 23 - m.log2 + (m.log2 + 127 - 1) = 149 by omega]

theorem scaledValue_cvtInt32ToSP {n : Int} (hn : n.natAbs < 2 ^ 24) : scaledValue (cvtInt32ToSP n) = n * 2 ^ 149 := by
  by_cases h : n = 0
  · subst h; decide
  · rw [scaledValue, sign_cvtInt32ToSP h hn, scaledAbs_cvtInt32ToSP h hn]
    by_cases hneg : n < 0
    · rw [decide_eq_true hneg]
      rw [if_pos rfl, Int.natCast_mul, Int.ofNat_natAbs_of_nonpos (Int.le_of_lt hneg), Int.neg_mul, Int.neg_neg]
      rfl
    · rw [decide_eq_false hneg, if_neg Bool.false_ne_true, Int.natCast_mul, Int.natAbs_of_nonneg (Int.not_lt.1 hneg)]
      rfl

/-- Settles O23: the conversion is exact wherever |n| < 2^24, as R78 says. -/
theorem conversionExact : Obligations.ConversionExact := by
  unfold Obligations.ConversionExact
  intro n hlow hhigh
  have hn : n.natAbs < 2 ^ 24 := by omega
  exact ⟨isFinite_cvtInt32ToSP hn, scaledValue_cvtInt32ToSP hn, rfl⟩

/-! ### Denormals (40_getexp_element.md R74) -/

theorem scaledAbs_of_isDenormal {x : Elem} (h : isDenormal x = true) : scaledAbs x = (fraction x).toNat :=
  if_pos ((isDenormal_iff x).1 h).1

theorem fraction_toNat_ne_zero {x : Elem} (h : isDenormal x = true) : (fraction x).toNat ≠ 0 :=
  fun h0 => ((isDenormal_iff x).1 h).2 (BitVec.eq_of_toNat_eq h0)

/-- Settles O20: p is the logarithm of the fraction, and p - 149 is a negative integer that the conversion gives its sign. -/
theorem denormalSource : Obligations.DenormalSource := by
  unfold Obligations.DenormalSource
  intro x h
  obtain ⟨_, hf⟩ := (isDenormal_iff x).1 h
  have htop := isTopBit_log2 hf
  have hp := htop.lt
  have hres := getExpSP_of_isDenormal h
  rw [topBit_eq_log2 hf] at hres
  refine ⟨_, Nat.le_of_lt_succ hp, htop.1, htop.2, ?_, ?_, hres, ?_⟩
  · rw [scaledAbs_of_isDenormal h]
    exact Nat.log2_self_le (fraction_toNat_ne_zero h)
  · rw [scaledAbs_of_isDenormal h]
    exact Nat.lt_log2_self
  · rw [hres, sign_cvtInt32ToSP (by omega) (by omega)]
    exact decide_eq_true (by omega)

/-! ### Normals, and the page's integer path (40_getexp_element.md R75, R77) -/

theorem biasedExp_toNat_of_isNormal {x : Elem} (h : isNormal x = true) :
    1 ≤ (biasedExp x).toNat ∧ (biasedExp x).toNat ≤ 254 := by
  obtain ⟨he, he'⟩ := (isNormal_iff x).1 h
  have h0 : (biasedExp x).toNat ≠ 0 := fun h0 => he (BitVec.eq_of_toNat_eq h0)
  have h255 : (biasedExp x).toNat ≠ 255 := fun h255 => he' (BitVec.eq_of_toNat_eq h255)
  omega

/-- With the sign cleared the arithmetic shift is a logical one and leaves the biased exponent. -/
theorem sar32_clearSign (x : Elem) : sar32 (x &&& 0x7FFFFFFF) 23 = (biasedExp x).setWidth 32 := by
  have hclear : (x &&& 0x7FFFFFFF).toNat = x.toNat % 2 ^ 31 := by
    rw [BitVec.toNat_and]
    exact Nat.and_two_pow_sub_one_eq_mod x.toNat 31
  have hmsb : (x &&& 0x7FFFFFFF).msb = false := by
    rw [BitVec.msb_eq_decide, hclear]
    exact decide_eq_false (by omega)
  apply BitVec.eq_of_toNat_eq
  rw [sar32, BitVec.sshiftRight_eq_of_msb_false hmsb, BitVec.toNat_ushiftRight, hclear, Nat.shiftRight_eq_div_pow,
    BitVec.toNat_setWidth, biasedExp_toNat]
  omega

/-- Nothing wraps when the bias is subtracted in two's complement. -/
theorem toInt_ofInt_sub_bias {n : Int} (hlow : -256 ≤ n) (hhigh : n ≤ 255) : (BitVec.ofInt 32 n - 127).toInt = n - 127 := by
  have hbias : (127 : BitVec 32).toInt = 127 := by decide
  rw [BitVec.toInt_sub, BitVec.toInt_ofInt_eq_self (by decide) (by omega) (by omega), hbias,
    Int.bmod_eq_of_le (by omega) (by omega)]

/-- The arithmetic path converts e - 127, for every element. -/
theorem normalPath_eq (x : Elem) : normalPath x = cvtInt32ToSP (((biasedExp x).toNat : Int) - 127) := by
  have hexp : (biasedExp x).setWidth 32 = BitVec.ofInt 32 (biasedExp x).toNat := by
    rw [BitVec.ofInt_natCast, BitVec.ofNat_toNat]
  rw [normalPath, sar32_clearSign, hexp, toInt_ofInt_sub_bias (by omega) (by omega)]

/-- Settles O21: the element function and the arithmetic path both convert e - 127. -/
theorem normalSource : Obligations.NormalSource := by
  unfold Obligations.NormalSource
  intro x daz h
  refine ⟨getExpSP_of_isNormal h daz, sar32_clearSign x, ?_⟩
  rw [getExpSP_of_isNormal h, normalPath_eq]

/-! ### The result as a logarithm (40_getexp_element.md R67) -/

/-- The elements that have a logarithm: normals, and denormals that DAZ does not turn into zeros (R73). -/
def HasLog (x : Elem) (daz : Bool) : Prop := isNormal x = true ∨ (isDenormal x = true ∧ daz = false)

theorem scaledAbs_of_isNormal {x : Elem} (h : isNormal x = true) :
    scaledAbs x = (2 ^ 23 + (fraction x).toNat) * 2 ^ ((biasedExp x).toNat - 1) :=
  if_neg ((isNormal_iff x).1 h).1

theorem HasLog.scaledAbs_ne_zero {x : Elem} {daz : Bool} (h : HasLog x daz) : scaledAbs x ≠ 0 := by
  obtain hnorm | ⟨hden, _⟩ := h
  · rw [scaledAbs_of_isNormal hnorm]
    exact Nat.mul_ne_zero (by omega) (Nat.ne_of_gt (Nat.two_pow_pos _))
  · rw [scaledAbs_of_isDenormal hden]
    exact fraction_toNat_ne_zero hden

/-- The hidden bit is the top bit of a normal's significand. -/
theorem log2_scaledAbs_of_isNormal {x : Elem} (h : isNormal x = true) :
    (scaledAbs x).log2 = (biasedExp x).toNat + 22 := by
  have he := (biasedExp_toNat_of_isNormal h).1
  have hf := (fraction x).isLt
  rw [Nat.log2_eq_iff (HasLog.scaledAbs_ne_zero (daz := false) (.inl h)), scaledAbs_of_isNormal h,
    show (biasedExp x).toNat + 22 = 23 + ((biasedExp x).toNat - 1) by omega,
    show 23 + ((biasedExp x).toNat - 1) + 1 = 24 + ((biasedExp x).toNat - 1) by omega, Nat.pow_add, Nat.pow_add]
  exact ⟨Nat.mul_le_mul_right _ (by omega), Nat.mul_lt_mul_of_pos_right (by omega) (Nat.two_pow_pos _)⟩

/-- Whatever the class, the integer converted is the logarithm of the scaled magnitude less 149. -/
theorem HasLog.getExpSP_res {x : Elem} {daz : Bool} (h : HasLog x daz) :
    (getExpSP x daz).res = cvtInt32ToSP (((scaledAbs x).log2 : Int) - 149) := by
  obtain hnorm | ⟨hden, rfl⟩ := h
  · rw [getExpSP_of_isNormal hnorm, log2_scaledAbs_of_isNormal hnorm,
      show ((biasedExp x).toNat : Int) - 127 = ((biasedExp x).toNat + 22 : Nat) - 149 by omega]
  · rw [getExpSP_of_isDenormal hden, scaledAbs_of_isDenormal hden, topBit_eq_log2 ((isDenormal_iff x).1 hden).2]

theorem HasLog.log2_scaledAbs_le {x : Elem} {daz : Bool} (h : HasLog x daz) : (scaledAbs x).log2 ≤ 276 := by
  obtain hnorm | ⟨hden, _⟩ := h
  · have := (biasedExp_toNat_of_isNormal hnorm).2
    rw [log2_scaledAbs_of_isNormal hnorm]
    omega
  · have := (isTopBit_log2 ((isDenormal_iff x).1 hden).2).lt
    rw [scaledAbs_of_isDenormal hden]
    omega

theorem biasedExp_flipSign (x : Elem) : biasedExp (x ^^^ 0x80000000) = biasedExp x := by
  rw [biasedExp, BitVec.extractLsb'_xor]
  exact BitVec.xor_zero

theorem fraction_flipSign (x : Elem) : fraction (x ^^^ 0x80000000) = fraction x := by
  rw [fraction, BitVec.extractLsb'_xor]
  exact BitVec.xor_zero

theorem HasLog.getExpSP_flipSign {x : Elem} {daz : Bool} (h : HasLog x daz) :
    getExpSP (x ^^^ 0x80000000) daz = getExpSP x daz := by
  obtain hnorm | ⟨hden, rfl⟩ := h
  · have hnorm' : isNormal (x ^^^ 0x80000000) = true := by rwa [isNormal, biasedExp_flipSign]
    rw [getExpSP_of_isNormal hnorm, getExpSP_of_isNormal hnorm', biasedExp_flipSign]
  · have hden' : isDenormal (x ^^^ 0x80000000) = true := by rwa [isDenormal, biasedExp_flipSign, fraction_flipSign]
    rw [getExpSP_of_isDenormal hden, getExpSP_of_isDenormal hden', fraction_flipSign]

/-- Settles O16: the integer is the logarithm of the scaled magnitude less 149, and its conversion is exact. -/
theorem getExpIsFloorLog2 : Obligations.GetExpIsFloorLog2 := by
  unfold Obligations.GetExpIsFloorLog2
  intro x daz h
  replace h : HasLog x daz := h
  have hle := h.log2_scaledAbs_le
  have hn : (((scaledAbs x).log2 : Int) - 149).natAbs < 2 ^ 24 := by omega
  rw [h.getExpSP_res]
  refine ⟨isFinite_cvtInt32ToSP hn, h.getExpSP_flipSign, _, by omega, by omega, scaledValue_cvtInt32ToSP hn, ?_, ?_⟩
  · rw [show (((scaledAbs x).log2 : Int) - 149 + 149).toNat = (scaledAbs x).log2 by omega]
    exact Nat.log2_self_le h.scaledAbs_ne_zero
  · rw [show (((scaledAbs x).log2 : Int) - 149 + 150).toNat = (scaledAbs x).log2 + 1 by omega]
    exact Nat.lt_log2_self

/-! ### The printed pseudocode (90_conflicts.md C2, C3, C6) -/

theorem signBit_or_of_msb {y : Elem} (h : y.msb = true) : ((0x80000000 : Nat) : Elem) ||| y = y := by
  apply BitVec.eq_of_getLsbD_eq
  intro b hb
  rw [BitVec.getLsbD_or, show ((0x80000000 : Nat) : Elem) = BitVec.twoPow 32 31 by decide, BitVec.getLsbD_twoPow]
  by_cases hb' : b = 31
  · subst hb'
    rw [show y.getLsbD 31 = true from h, Bool.or_true]
  · simp [Ne.symm hb']

/-- A negative exponent, moved up to bit 23, already has the sign bit that the page forces, so that the arithmetic shift gives it back;
an exponent of 0 has not, which is the defect of C2. -/
theorem sar32_printedNormalize {f : BitVec 23} (hlow : -256 ≤ normalizeExpTiny f) (hneg : normalizeExpTiny f < 0) :
    sar32 (printedNormalize f) 23 = BitVec.ofInt 32 (normalizeExpTiny f) := by
  rw [printedNormalize]
  generalize normalizeExpTiny f = e at *
  have hshift : BitVec.ofInt 32 e <<< 23 = BitVec.ofInt 32 (e * 2 ^ 23) := by
    rw [BitVec.shiftLeft_eq_mul_twoPow, BitVec.ofInt_mul]
    rfl
  have hval : (BitVec.ofInt 32 (e * 2 ^ 23)).toInt = e * 2 ^ 23 :=
    BitVec.toInt_ofInt_eq_self (by decide) (by omega) (by omega)
  have hmsb : (BitVec.ofInt 32 (e * 2 ^ 23)).msb = true := by
    rw [BitVec.msb_eq_toInt, hval]
    exact decide_eq_true (by omega)
  apply BitVec.eq_of_toInt_eq
  rw [hshift, signBit_or_of_msb hmsb, sar32, BitVec.toInt_sshiftRight, hval, Int.shiftRight_eq_div_pow,
    BitVec.toInt_ofInt_eq_self (by decide) (by omega) (by omega)]
  exact Int.mul_ediv_cancel e (by decide)

theorem ne_plusInf {x : Elem} (he : biasedExp x ≠ 255) : x ≠ plusInf := by
  rintro rfl
  exact he (by decide)

theorem printedConvertExp_of_isDenormal {x : Elem} (h : isDenormal x = true) :
    printedConvertExp x false =
      { res := cvtInt32ToSP (sar32 (printedNormalize (fraction x)) 23 - 127).toInt, ie := false, de := true } := by
  obtain ⟨he, hf⟩ := (isDenormal_iff x).1 h
  have he' := biasedExp_ne_255 he
  have hzero : ¬ (fraction x = 0 ∨ false = true) := not_or.2 ⟨hf, Bool.false_ne_true⟩
  rw [printedConvertExp, if_neg fun hnan => he' hnan.1, if_neg (ne_plusInf he'), if_neg fun hz => hzero hz.2, if_pos he]

theorem printedConvertExp_of_isNormal {x : Elem} (h : isNormal x = true) (daz : Bool) :
    printedConvertExp x daz = getExpSP x daz := by
  obtain ⟨he, he'⟩ := (isNormal_iff x).1 h
  rw [printedConvertExp, if_neg fun hnan => he' hnan.1, if_neg (ne_plusInf he'), if_neg fun hz => he hz.1, if_neg he,
    getExpSP_of_isNormal h, normalPath_eq]

theorem printedConvertExp_of_zero {x : Elem} {daz : Bool} (he : biasedExp x = 0) (h : fraction x = 0 ∨ daz = true) :
    printedConvertExp x daz = getExpSP x daz := by
  have he' := biasedExp_ne_255 he
  rw [printedConvertExp, if_neg fun hnan => he' hnan.1, if_neg (ne_plusInf he'), if_pos ⟨he, h⟩, getExpSP_of_zero he h]

/-- A denormal whose top bit lies below bit 22 has a negative `Dst.exp`, which the packing keeps. -/
theorem printedConvertExp_of_low_denormal {x : Elem} (h : isDenormal x = true) (h22 : (fraction x).getLsbD 22 = false) :
    printedConvertExp x false = getExpSP x false := by
  obtain ⟨_, hf⟩ := (isDenormal_iff x).1 h
  have htop := isTopBit_log2 hf
  have hp : (fraction x).toNat.log2 ≠ 22 := fun hp => by
    have := htop.1
    rw [hp, h22] at this
    exact Bool.false_ne_true this
  have hlt := htop.lt
  have hexp := htop.normalizeExpTiny_eq
  rw [printedConvertExp_of_isDenormal h, getExpSP_of_isDenormal h, topBit_eq_log2 hf,
    sar32_printedNormalize (by omega) (by omega), hexp, toInt_ofInt_sub_bias (by omega) (by omega)]
  congr 2
  omega

/-- A denormal whose top bit is bit 22 has `Dst.exp` = 0, which the packing turns into -256: 2^23 is taken off. -/
theorem printedConvertExp_of_high_denormal {x : Elem} (h : isDenormal x = true) (h22 : (fraction x).getLsbD 22 = true) :
    (printedConvertExp x false).res = 0xC3BF8000 := by
  have htop : IsTopBit (fraction x) 22 := ⟨h22, fun b hb => BitVec.getLsbD_of_ge _ _ hb⟩
  rw [printedConvertExp_of_isDenormal h, printedNormalize, htop.normalizeExpTiny_eq]
  decide

/-- Settles O26: class by class, the two functions return the same, but for the two bands. -/
theorem printedPseudocodeDiffersInTwoBands : Obligations.PrintedPseudocodeDiffersInTwoBands := by
  unfold Obligations.PrintedPseudocodeDiffersInTwoBands
  intro x daz
  refine ⟨?_, ?_, fun hband hinf => ?_⟩
  · rintro ⟨hden, rfl, h22⟩
    exact printedConvertExp_of_high_denormal hden h22
  · rintro rfl
    revert daz
    decide
  · by_cases he255 : biasedExp x = 255
    · by_cases hf : fraction x = 0
      · obtain rfl | rfl := eq_inf_of_isInf ((isInf_iff x).2 ⟨he255, hf⟩)
        · revert daz
          decide
        · exact absurd rfl hinf
      · rw [getExpSP_of_nan he255 hf, printedConvertExp, if_pos ⟨he255, hf⟩]
    · by_cases he : biasedExp x = 0
      · by_cases hzero : fraction x = 0 ∨ daz = true
        · exact printedConvertExp_of_zero he hzero
        · obtain ⟨hf, hdaz⟩ := not_or.1 hzero
          have hden := (isDenormal_iff x).2 ⟨he, hf⟩
          obtain rfl := Bool.eq_false_iff.2 hdaz
          exact printedConvertExp_of_low_denormal hden (Bool.eq_false_iff.2 fun h22 => hband ⟨hden, rfl, h22⟩)
      · exact printedConvertExp_of_isNormal ((isNormal_iff x).2 ⟨he, he255⟩) daz

end Sys2Proof.Proofs
end

section
/-! PROOFS of the statements of 41_vgetexpps.md, and the laws they rest on. -/

namespace Sys2Proof.Proofs

open Sys2Proof.Machine

/-! ### What a form that completes leaves (41_vgetexpps.md R83 to R89) -/

/-- Every element of the destination below VL is the result element. -/
theorem completed_lane {vl : VecLen} {j : Nat} (hj : j < kl vl) (d : VReg) (S : ZmmVal) (aaa : KReg) (z sae : Bool) (len : Nat)
    (s : State) :
    ((completed vl d S aaa z sae len s).readZmm d).extractLsb' (32 * j) 32 = resultLane s d S aaa z j := by
  rw [completed_dest]
  exact lane_packLanes _ (kl_le vl) hj

section ResultLane
variable {i : Instr} {s : State} {S : ZmmVal} {j : Nat}

theorem resultLane_of_computed (hS : sourceValue i.vecLen s (sourceOf i s) = .ok S) (hj : j < kl i.vecLen)
    (hc : Computed i s j) :
    resultLane s i.dest S i.maskReg i.zeroing j = (getExpSP (sourceElem i s j) (mxDAZ s.mxcsr)).res := by
  rw [resultLane, if_pos ((selected_iff i s j).2 hc), elementAt_sourceValue hS hj]

theorem resultLane_of_not_computed (hc : ¬ Computed i s j) : resultLane s i.dest S i.maskReg i.zeroing j =
    if i.zeroing then 0 else (s.readZmm i.dest).extractLsb' (32 * j) 32 := by
  rw [resultLane, if_neg (mt (selected_iff i s j).1 hc), lane_eq]

end ResultLane

section Next
variable {i : Instr} {s t : State} (h : exec i s = .next t)
include h

/-- An element that is not computed is merged or zeroed (R85). -/
theorem exec_next_not_computed {j : Nat} (hj : j < kl i.vecLen) (hc : ¬ Computed i s j) :
    (t.readZmm i.dest).extractLsb' (32 * j) 32 = if i.zeroing then 0 else (s.readZmm i.dest).extractLsb' (32 * j) 32 := by
  obtain ⟨S, _, rfl⟩ := exec_next h
  rw [completed_lane hj, resultLane_of_not_computed hc]

/-- The destination and `rip` of every form that completes. -/
theorem exec_next_resultOf : ResultOf i s t where
  computed j hj hc := by
    obtain ⟨S, hS, rfl⟩ := exec_next h
    rw [completed_lane hj, resultLane_of_computed hS hj hc]
  merged j hj hc hz := by rw [exec_next_not_computed h hj hc, hz]; rfl
  zeroed j hj hc hz := by rw [exec_next_not_computed h hj hc, hz]; rfl
  upper b hb := by
    obtain ⟨S, _, rfl⟩ := exec_next h
    rw [completed_dest]
    exact packLanes_above _ (kl_le _) hb
  rip := (frameOfEveryForm i s t h).2

/-- IE and DE after a form without `{sae}` (R88). -/
theorem exec_next_flagsOf (hsae : i.isSae = false) : FlagsOf i s t := by
  obtain ⟨hie, hde, hother⟩ := flagsSticky i s t h
  simp only [hsae, true_and] at hie hde
  exact ⟨hie, hde, hother⟩

/-- A form that requests nothing, or is the `{sae}` form, leaves MXCSR whole as it was. -/
theorem exec_next_mxcsr_eq (hreq : i.isSae = true ∨ (¬ RequestsIE i s ∧ ¬ RequestsDE i s)) : t.mxcsr = s.mxcsr := by
  obtain ⟨S, hS, rfl⟩ := exec_next h
  rw [completed_mxcsr]
  obtain hsae | ⟨hie, hde⟩ := hreq
  · rw [if_pos hsae]
  · have hno : flagWord (ieAny i.vecLen s S i.maskReg) (deAny i.vecLen s S i.maskReg) = 0#32 := by
      rw [Bool.eq_false_iff.2 (mt (ieAny_iff_requestsIE hS).1 hie), Bool.eq_false_iff.2 (mt (deAny_iff_requestsDE hS).1 hde)]
      rfl
    rw [hno, BitVec.or_zero, ite_self]

end Next

/-- Settles O35: the destination is written whole, and packed elements have no bit above them. -/
theorem zeroAboveVL : Obligations.ZeroAboveVL := by
  unfold Obligations.ZeroAboveVL
  intro i s t h b hb
  exact (exec_next_resultOf h).upper b hb

/-- Settles O36: the elements by `exec_next_not_computed`; a flag that is new was requested, and a request names a computed
element. -/
theorem maskedElements : Obligations.MaskedElements := by
  unfold Obligations.MaskedElements
  intro i s t h
  obtain ⟨hie, hde, _⟩ := flagsSticky i s t h
  refine ⟨fun j hj hc => exec_next_not_computed h hj hc, fun hset => ?_, fun hset => ?_, fun hnone => ?_⟩
  · exact (hie.1 hset).imp_right fun ⟨_, hreq⟩ => hreq
  · exact (hde.1 hset).imp_right fun ⟨_, _, hreq⟩ => hreq
  · refine exec_next_mxcsr_eq h (.inr ⟨?_, ?_⟩)
    · rintro ⟨j, hj, hc, _⟩
      exact hnone j hj hc
    · rintro ⟨_, j, hj, hc, _⟩
      exact hnone j hj hc

/-! ### When a form completes (41_vgetexpps.md R83, 60_exceptions.md R107, decision D24) -/

theorem unmasked_iff {i : Instr} {s : State} {S : ZmmVal} (hS : sourceValue i.vecLen s (sourceOf i s) = .ok S) :
    unmasked s.mxcsr (ieAny i.vecLen s S i.maskReg) (deAny i.vecLen s S i.maskReg) = true ↔ UnmaskedRequest i s := by
  rw [unmasked, UnmaskedRequest, ← ieAny_iff_requestsIE hS, ← deAny_iff_requestsDE hS]
  simp only [Bool.or_eq_true, Bool.and_eq_true, Bool.not_eq_true']

/-- An enabled form whose operand is admitted completes where it has `{sae}` or requests nothing unmasked. -/
theorem exec_completes {i : Instr} {s : State} (hen : Enabled i s) (ha : OperandAdmitted i s)
    (hreq : i.isSae = true ∨ ¬ UnmaskedRequest i s) : ∃ t, exec i s = .next t := by
  obtain ⟨S, hS, hexec⟩ := exec_admitted hen ha
  rw [hexec, finish, if_neg]
  · exact ⟨_, rfl⟩
  · rw [Bool.and_eq_true, unmasked_iff hS, Bool.not_eq_true']
    rintro ⟨hsae, hun⟩
    rw [hsae] at hreq
    exact hreq.elim Bool.false_ne_true fun hno => hno hun

theorem operandAdmitted_of_no_range {i : Instr} {s : State} (h : operandRange i s = none) : OperandAdmitted i s := by
  intro ea n hr
  rw [h] at hr
  cases hr

/-- What the statements about the forms without `{sae}` have in common. -/
theorem exec_completes_without_sae {i : Instr} {s : State} (hsae : i.isSae = false) (hen : Enabled i s) (ha : OperandAdmitted i s)
    (hreq : ¬ UnmaskedRequest i s) : ∃ t, exec i s = .next t ∧ ResultOf i s t ∧ FlagsOf i s t ∧ FrameOf i.dest s t := by
  obtain ⟨t, ht⟩ := exec_completes hen ha (.inr hreq)
  exact ⟨t, ht, exec_next_resultOf ht, exec_next_flagsOf ht hsae, (frameOfEveryForm i s t ht).1⟩

/-! The operands of the forms that are named by their vector length. -/

section Forms
variable (vl : VecLen) (d r : VReg) (m : MemOp) (aaa : KReg) (z : Bool) (s : State)

@[simp] theorem regForm_isSae : (regForm vl d r aaa z).isSae = false := by cases vl <;> rfl
@[simp] theorem regForm_dest : (regForm vl d r aaa z).dest = d := by cases vl <;> rfl
@[simp] theorem regForm_length : (regForm vl d r aaa z).length = 6 := by cases vl <;> rfl
@[simp] theorem regForm_vecLen : (regForm vl d r aaa z).vecLen = vl := by cases vl <;> rfl
@[simp] theorem regForm_range : operandRange (regForm vl d r aaa z) s = none := by cases vl <;> rfl
@[simp] theorem regForm_sourceOf : sourceOf (regForm vl d r aaa z) s = .reg r := by cases vl <;> rfl
@[simp] theorem regForm_sourceElem (j : Nat) :
    sourceElem (regForm vl d r aaa z) s j = (s.readZmm r).extractLsb' (32 * j) 32 := by cases vl <;> rfl
@[simp] theorem fullForm_isSae : (fullForm vl d m aaa z).isSae = false := by cases vl <;> rfl
@[simp] theorem fullForm_dest : (fullForm vl d m aaa z).dest = d := by cases vl <;> rfl
@[simp] theorem bcstForm_isSae : (bcstForm vl d m aaa z).isSae = false := by cases vl <;> rfl
@[simp] theorem bcstForm_dest : (bcstForm vl d m aaa z).dest = d := by cases vl <;> rfl

end Forms

/-- Settles O27: a register form has no operand in memory, and six bytes. -/
theorem registerFormsComplete : Obligations.RegisterFormsComplete := by
  unfold Obligations.RegisterFormsComplete
  intro vl d r aaa z s hen hreq
  have hadm := operandAdmitted_of_no_range (regForm_range vl d r aaa z s)
  obtain ⟨t, ht, hres, hflags, hframe⟩ := exec_completes_without_sae (regForm_isSae ..) hen hadm hreq
  rw [regForm_dest] at hframe
  have hrip := hres.rip
  rw [regForm_length] at hrip
  exact ⟨t, ht, hres, hflags, hframe, hrip⟩

/-- Settles O28: the operand is admitted, and `sourceElem` names its elements at EA + 4j. -/
theorem fullMemoryFormsComplete : Obligations.FullMemoryFormsComplete := by
  unfold Obligations.FullMemoryFormsComplete
  intro vl d m aaa z s hen hadm hreq
  have hcompletes := exec_completes_without_sae (fullForm_isSae ..) hen hadm hreq
  rwa [fullForm_dest] at hcompletes

/-- Settles O29: the operand is admitted, and `sourceElem` names its one element for every `j`. -/
theorem broadcastFormsComplete : Obligations.BroadcastFormsComplete := by
  unfold Obligations.BroadcastFormsComplete
  intro vl d m aaa z s hen hadm hreq
  have hcompletes := exec_completes_without_sae (bcstForm_isSae ..) hen hadm hreq
  rwa [bcstForm_dest] at hcompletes

/-- Settles O30: under `{sae}` nothing is tested against the exception masks and no flag is set (decision D20). -/
theorem saeFormCompletes : Obligations.SaeFormCompletes := by
  unfold Obligations.SaeFormCompletes
  intro d r aaa z s hen
  obtain ⟨t, ht⟩ := exec_completes hen (operandAdmitted_of_no_range rfl) (.inl rfl)
  obtain ⟨hframe, hrip⟩ := frameOfEveryForm _ s t ht
  exact ⟨t, ht, exec_next_resultOf ht, exec_next_mxcsr_eq ht (.inl rfl), hframe, hrip⟩

/-- Settles O37: the source element of the result is read from the state before, whichever register it lies in. -/
theorem sourceIsDestination : Obligations.SourceIsDestination := by
  unfold Obligations.SourceIsDestination
  intro vl d aaa z s t h j hj hc
  have hlane := (exec_next_resultOf h).computed j (by rwa [regForm_vecLen]) hc
  rwa [regForm_dest, regForm_sourceElem] at hlane

/-- The completed states with and without `{sae}` differ in MXCSR only. -/
theorem completed_sae_eq (vl : VecLen) (d : VReg) (S : ZmmVal) (aaa : KReg) (z sae : Bool) (len : Nat) (s : State) :
    completed vl d S aaa z true len s = { completed vl d S aaa z sae len s with mxcsr := s.mxcsr } := by
  cases sae <;> rfl

/-- Settles O40: both forms read the same source register, and what completes is the same but for the flags (decision D20). -/
theorem saeSameResults : Obligations.SaeSameResults := by
  unfold Obligations.SaeSameResults
  intro d r aaa z s t h
  rw [exec_eq] at h
  obtain ⟨hos, hf, S, hS, _, rfl⟩ := vgetexpps_next h
  rw [exec_eq]
  refine (vgetexpps_source_ok hos hf hS).trans ?_
  exact congrArg Host.Outcome.next (completed_sae_eq ..)

/-! ### The source register counts through its computed elements only (41_vgetexpps.md R85) -/

section SourceWrite
variable {vl : VecLen} {d r : VReg} {aaa : KReg} {s : State} {v : ZmmVal}

theorem selected_writeZmm (s : State) (r : VReg) (v : ZmmVal) (aaa : KReg) (j : Nat) :
    selected (s.writeZmm r v) aaa j = selected s aaa j := rfl

/-- The state after a write to the source register makes of a computed element what the state before did. -/
theorem elementAt_writeZmm {S S' : ZmmVal} {j : Nat} (h : lane S' j = lane S j) :
    elementAt (s.writeZmm r v) S' j = elementAt s S j := by
  rw [elementAt, h, writeZmm_mxcsr, elementAt]

section Agree
variable {S S' : ZmmVal} (hagree : ∀ j < kl vl, selected s aaa j = true → lane S' j = lane S j)
include hagree

theorem ieAny_writeZmm : ieAny vl (s.writeZmm r v) S' aaa = ieAny vl s S aaa := by
  rw [Bool.eq_iff_iff, ieAny_iff, ieAny_iff]
  exact exists_congr fun j => and_congr_right fun hj => and_congr_right fun hsel => by
    rw [elementAt_writeZmm (hagree j hj hsel)]

theorem deAny_writeZmm : deAny vl (s.writeZmm r v) S' aaa = deAny vl s S aaa := by
  rw [Bool.eq_iff_iff, deAny_iff, deAny_iff]
  exact exists_congr fun j => and_congr_right fun hj => and_congr_right fun hsel => by
    rw [elementAt_writeZmm (hagree j hj hsel)]

theorem resultVector_writeZmm (hne : r ≠ d) (z : Bool) :
    resultVector vl (s.writeZmm r v) d S' aaa z = resultVector vl s d S aaa z := by
  refine packLanes_congr fun j hj => ?_
  rw [resultLane, resultLane, selected_writeZmm, readZmm_writeZmm_ne s v hne.symm]
  split
  · next hsel => rw [elementAt_writeZmm (hagree j hj hsel)]
  · rfl

theorem completed_writeZmm (hne : r ≠ d) (z sae : Bool) (len : Nat) :
    completed vl d S' aaa z sae len (s.writeZmm r v) = (completed vl d S aaa z sae len s).writeZmm r v := by
  rw [completed, ieAny_writeZmm hagree, deAny_writeZmm hagree, resultVector_writeZmm hagree hne, completed]
  generalize ieAny vl s S aaa = ie
  generalize deAny vl s S aaa = de
  generalize resultVector vl s d S aaa z = w
  have hnote : (s.writeZmm r v).noteFlags sae ie de = (s.noteFlags sae ie de).writeZmm r v := by cases sae <;> rfl
  rw [hnote, writeZmm_comm _ _ _ hne]
  rfl

theorem finish_writeZmm (hne : r ≠ d) (z sae : Bool) (len : Nat) :
    finish vl d S' aaa z sae len (s.writeZmm r v) = mapNext (·.writeZmm r v) (finish vl d S aaa z sae len s) := by
  rw [finish, finish, ieAny_writeZmm hagree, deAny_writeZmm hagree, completed_writeZmm hagree hne, writeZmm_mxcsr]
  split <;> rfl

end Agree

/-- The outcome of an operation on a register source, after a write to that register that keeps the computed elements. -/
theorem vgetexpps_writeZmm_source (hne : r ≠ d)
    (hagree : ∀ j < kl vl, selected s aaa j = true → lane v j = lane (s.readZmm r) j) (z sae : Bool) (len : Nat) :
    vgetexpps vl d (.reg r) aaa z sae len (s.writeZmm r v) =
      mapNext (·.writeZmm r v) (vgetexpps vl d (.reg r) aaa z sae len s) := by
  cases hos : s.osEnabled with
  | false => rw [vgetexpps_not_enabled hos, vgetexpps_not_enabled (s := s.writeZmm r v) hos]; rfl
  | true =>
    cases hf : featuresPresent s.cfg vl with
    | false => rw [vgetexpps_no_feature hos hf, vgetexpps_no_feature (s := s.writeZmm r v) hos hf]; rfl
    | true =>
      rw [vgetexpps_source_ok hos hf (sourceValue_reg vl s r),
        vgetexpps_source_ok (s := s.writeZmm r v) hos hf (sourceValue_reg vl _ r), readZmm_writeZmm_self]
      refine finish_writeZmm (fun j hj hsel => ?_) hne z sae len
      rw [lane_lowBits vl _ hj, lane_lowBits vl _ hj, hagree j hj hsel]

end SourceWrite

/-- Settles O41: both kinds of form are the operation on a register source, whose outcome follows the computed elements only. -/
theorem uncomputedSourceIrrelevant : Obligations.UncomputedSourceIrrelevant := by
  unfold Obligations.UncomputedSourceIrrelevant
  intro i vl d r aaa z s v hi hne hagree
  have hsrc : i.dest = d ∧ ∀ s, sourceOf i s = .reg r := by
    rcases hi with rfl | rfl
    · exact ⟨regForm_dest .., regForm_sourceOf vl d r aaa z⟩
    · exact ⟨rfl, fun _ => rfl⟩
  obtain ⟨rfl, hreg⟩ := hsrc
  have hexec : exec i (s.writeZmm r v) = mapNext (·.writeZmm r v) (exec i s) := by
    rw [exec_eq, exec_eq, hreg, hreg]
    exact vgetexpps_writeZmm_source hne (fun j hj hsel => hagree j hj ((selected_iff i s j).1 hsel)) ..
  rw [hexec]
  cases exec i s <;> rfl

/-! ### The words that the spec spells out (41_vgetexpps.md R90 to R99) -/

/-- Settles O6: ten closed evaluations of the decoder. -/
theorem spelledEncodingsDecode : Obligations.SpelledEncodingsDecode := by
  unfold Obligations.SpelledEncodingsDecode
  decide

end Sys2Proof.Proofs
end

section
/-! PROOFS of the statements of 60_exceptions.md, and the laws they rest on. -/

namespace Sys2Proof.Proofs

open Sys2Proof.Machine

/-! ### The outcomes of a meaning, in their order (60_exceptions.md R103, R107, R112, decision D27) -/

section Order
variable {i : Instr} {s : State}

theorem exec_not_osEnabled (h : s.osEnabled = false) : exec i s = .refused .osNotEnabled := by
  rw [exec_eq]
  exact vgetexpps_not_enabled h

/-- With OS_ENABLED, what keeps a form from being enabled is a missing feature (R103). -/
theorem exec_not_enabled (hos : s.osEnabled = true) (hen : ¬ Enabled i s) : exec i s = .fault (.ud s.rip) := by
  rw [exec_eq]
  exact vgetexpps_no_feature hos (Bool.eq_false_iff.2 fun hf => hen ⟨hos, (featuresPresent_iff i s).1 hf⟩)

theorem exec_unmasked_request (hen : Enabled i s) (ha : OperandAdmitted i s) (hsae : i.isSae = false)
    (hreq : UnmaskedRequest i s) : exec i s = .fault (.xm s.rip) := by
  obtain ⟨S, hS, hexec⟩ := exec_admitted hen ha
  rw [hexec, finish, hsae, (unmasked_iff hS).2 hreq]
  rfl

theorem exists_range_of_not_operandAdmitted (h : ¬ OperandAdmitted i s) :
    ∃ ea n, operandRange i s = some (ea, n) ∧ ¬ Admit s.mem ea n := by
  obtain ⟨ea, hea⟩ := Classical.not_forall.1 h
  obtain ⟨n, hn⟩ := Classical.not_forall.1 hea
  obtain ⟨hr, hna⟩ := Classical.not_imp.1 hn
  exact ⟨ea, n, hr, hna⟩

/-- The inversion of a fault of a meaning: which of the three it is, and its cause. -/
theorem exec_fault {f : Fault} (h : exec i s = .fault f) :
    (f = .ud s.rip ∧ ¬ Enabled i s) ∨
    (∃ ea n, f = .memFault s.rip ea n ∧ operandRange i s = some (ea, n) ∧ ¬ Admit s.mem ea n) ∨
    (f = .xm s.rip ∧ i.isSae = false ∧ UnmaskedRequest i s) := by
  cases hos : s.osEnabled with
  | false => cases h.symm.trans (exec_not_osEnabled hos)
  | true =>
    by_cases hen : Enabled i s
    · by_cases ha : OperandAdmitted i s
      · by_cases hreq : i.isSae = true ∨ ¬ UnmaskedRequest i s
        · obtain ⟨t, ht⟩ := exec_completes hen ha hreq
          cases h.symm.trans ht
        · rw [not_or, Classical.not_not, Bool.not_eq_true] at hreq
          obtain ⟨hsae, hun⟩ := hreq
          cases h.symm.trans (exec_unmasked_request hen ha hsae hun)
          exact .inr (.inr ⟨rfl, hsae, hun⟩)
      · obtain ⟨ea, n, hr, hna⟩ := exists_range_of_not_operandAdmitted ha
        cases h.symm.trans (exec_not_admitted hen hr hna)
        exact .inr (.inl ⟨ea, n, rfl, hr, hna⟩)
    · cases h.symm.trans (exec_not_enabled hos hen)
      exact .inl ⟨rfl, hen⟩

end Order

/-- Settles O31: one law per clause, in the order in which a meaning makes its tests. -/
theorem outcomeOrder : Obligations.OutcomeOrder := by
  unfold Obligations.OutcomeOrder
  intro i s
  exact ⟨exec_not_osEnabled, exec_not_enabled, fun _ _ => exec_not_admitted, exec_unmasked_request, exec_completes⟩

/-- Settles O32: without its features a form is not enabled, and an enabled form raises no `#UD`. -/
theorem missingFeatureRaisesUD : Obligations.MissingFeatureRaisesUD := by
  unfold Obligations.MissingFeatureRaisesUD
  intro i s hos
  refine ⟨fun hnoF => exec_not_enabled hos ?_, fun hnoVL hvl => exec_not_enabled hos ?_, fun hF hvl h => ?_⟩
  · rintro ⟨_, hF, _⟩
    exact absurd (hnoF.symm.trans hF) Bool.false_ne_true
  · rintro ⟨_, _, h512 | hVL⟩
    · exact hvl h512
    · exact absurd (hnoVL.symm.trans hVL) Bool.false_ne_true
  · obtain ⟨_, hen⟩ | ⟨_, _, hf, _⟩ | ⟨hf, _⟩ := exec_fault h
    · exact hen ⟨hos, hF, .inl hvl⟩
    · cases hf
    · cases hf

/-! ### When no request is unmasked (60_exceptions.md R104, R105, R107) -/

theorem not_unmaskedRequest_of_masked {i : Instr} {s : State} (h : MaskedExceptions s) : ¬ UnmaskedRequest i s := by
  obtain ⟨him, hdm⟩ := h
  rintro (⟨_, hno⟩ | ⟨_, hno⟩)
  · exact absurd (hno.symm.trans him) Bool.false_ne_true
  · exact absurd (hno.symm.trans hdm) Bool.false_ne_true

theorem not_unmaskedRequest_of_no_request {i : Instr} {s : State} (h : ¬ RequestsIE i s ∧ ¬ RequestsDE i s) :
    ¬ UnmaskedRequest i s := by
  obtain ⟨hie, hde⟩ := h
  rintro (⟨hreq, _⟩ | ⟨hreq, _⟩)
  · exact hie hreq
  · exact hde hreq

/-- Settles O34: `#XM` names an unmasked request, of which both premises leave none. -/
theorem maskedNeverRaisesXM : Obligations.MaskedNeverRaisesXM := by
  unfold Obligations.MaskedNeverRaisesXM
  intro i s hquiet rip h
  have hno : ¬ UnmaskedRequest i s := hquiet.elim not_unmaskedRequest_of_masked not_unmaskedRequest_of_no_request
  obtain ⟨hf, _⟩ | ⟨_, _, hf, _⟩ | ⟨_, _, hreq⟩ := exec_fault h
  · cases hf
  · cases hf
  · exact hno hreq

/-! ### The outcomes of a step (60_exceptions.md R110, R112, R117) -/

/-- Settles O7: the law `step_of_decode`, where an instruction was decoded. -/
theorem stepRunsDecoded : Obligations.StepRunsDecoded := by
  unfold Obligations.StepRunsDecoded
  intro s i hmode hdec
  rw [step_of_decode hmode, hdec]
  rfl

/-- The inversion of a fault of a step: it is the decoder's, or that of the meaning of the instruction decoded. -/
theorem step_fault {s : State} {f : Fault} (h : step s = .fault f) :
    (s.fetchDecode = .ud ∧ f = .ud s.rip) ∨
    (∃ need, s.fetchDecode = .truncated need ∧ f = .memFault s.rip s.rip need) ∨
    (∃ i, s.fetchDecode = .ok i ∧ exec i s = .fault f) := by
  by_cases hmode : s.mode = .bits64
  · rw [step_of_decode hmode] at h
    cases hdec : s.fetchDecode with
    | ok i => rw [hdec] at h; exact .inr (.inr ⟨i, rfl, h⟩)
    | ud => rw [hdec] at h; cases h; exact .inl ⟨rfl, rfl⟩
    | truncated need => rw [hdec] at h; cases h; exact .inr (.inl ⟨need, rfl, rfl⟩)
    | notVgetexpps => rw [hdec] at h; cases h
    | saeWithOtherLL => rw [hdec] at h; cases h
  · cases h.symm.trans (step_other_mode hmode)

/-- Settles O52: the faults of the decoder and those of a meaning all carry `rip` of the state before (decision D26). -/
theorem faultCarriesRip : Obligations.FaultCarriesRip := by
  unfold Obligations.FaultCarriesRip
  intro s f h
  obtain ⟨_, hf⟩ | ⟨need, _, hf⟩ | ⟨i, _, hexec⟩ := step_fault h
  · exact .inl hf
  · exact .inr (.inr ⟨s.rip, need, hf⟩)
  · obtain ⟨hf, _⟩ | ⟨ea, n, hf, _⟩ | ⟨hf, _⟩ := exec_fault hexec
    · exact .inl hf
    · exact .inr (.inr ⟨ea, n, hf⟩)
    · exact .inr (.inl hf)

end Sys2Proof.Proofs
end
